-- ==== Sys2Proof/Word.lean ====
section
/-!
DEFINITION. The Word and the Byte of the machine (R104, R105): their types and plainest readings.
-/

namespace Sys2Proof

/-- "Word: 16-bit unsigned quantity; the architecture's only primitive datum" (R104). -/
abbrev Word := BitVec 16

/-- Half a Word, seen by the loader only (R152). -/
abbrev Byte := BitVec 8

/-- A 4-bit instruction field used as an index 0 to 15: a general register (R111, R176 a),
or a bit of `R15` (R176 b), or an interrupt request (R255). -/
abbrev Index := Fin 16

/-- The "natural" reading of a Word (R105). -/
abbrev uint (w : Word) : Nat := w.toNat

/-- The "integer" reading of a Word, two's complement (R105). -/
abbrev sint (w : Word) : Int := w.toInt

/-- `w[i]`: bit `i` of `w`, bit 0 the least significant (R105). -/
def bitOf (w : Word) (i : Index) : Bool := w.getLsbD i.val

/-- The Word whose unsigned value is `n mod 65536` (R105), for a natural `n`. -/
abbrev truncNat (n : Nat) : Word := BitVec.ofNat 16 n

/-- The Word whose unsigned value is `n mod 65536` (R105), for any integer `n`. -/
abbrev truncInt (n : Int) : Word := BitVec.ofInt 16 n

end Sys2Proof
end

