-- ==== Sys2Proof/Syntax.lean ====
section
/-!
DEFINITION. The instructions: one constructor per row of spec/opcode_table.json.
-/

namespace Sys2Proof

/-- A decoded instruction, "each carrying its operand fields" (R185), the ignored ones of R183 too.
`d`, `a`, `b` are the fields of the first word (R171), `disp` is the second word (R173, R174). -/
inductive Instr where
  /-- `add Rd,Ra,Rb` (R200) -/
  | add (d a b : Index)
  /-- `sub Rd,Ra,Rb` (R201) -/
  | sub (d a b : Index)
  /-- `mul Rd,Ra,Rb` (R202) -/
  | mul (d a b : Index)
  /-- `div Rd,Ra,Rb` (R203) -/
  | div (d a b : Index)
  /-- `cmp Ra,Rb` (R210); `d` is ignored -/
  | cmp (d a b : Index)
  /-- `trap Rd,Ra,Rb` (R215); `trap 0 0 0` is the illegal-instruction trap (R216) -/
  | trap (d a b : Index)
  /-- `lea Rd,disp[Ra]` (R221) -/
  | lea (d a : Index) (disp : Word)
  /-- `load Rd,disp[Ra]` (R222) -/
  | load (d a : Index) (disp : Word)
  /-- `store Rd,disp[Ra]` (R223) -/
  | store (d a : Index) (disp : Word)
  /-- `jump disp[Ra]` (R230); `d` is ignored -/
  | jump (d a : Index) (disp : Word)
  /-- `jumpc0 k,disp[Ra]` (R231); `k` is the `d` field, a bit index into `R15` -/
  | jumpc0 (k a : Index) (disp : Word)
  /-- `jumpc1 k,disp[Ra]` (R232) -/
  | jumpc1 (k a : Index) (disp : Word)
  /-- `jal Rd,disp[Ra]` (R233) -/
  | jal (d a : Index) (disp : Word)
  /-- `rfi` (R240); all three operands are ignored -/
  | rfi (d a : Index) (disp : Word)
  /-- `halt` (R241); all three operands are ignored -/
  | halt (d a : Index) (disp : Word)
deriving DecidableEq, Repr

end Sys2Proof
end

