-- ==== Sys2Proof/WellFormed.lean ====
section
/-!
DEFINITION. When a cut of numbers is the cut of an instruction: the ranges of the fields of the
first word (R171) and the presence and range of the second (R170). `Instr` carries these ranges in
its field types, so an ill-formed instruction cannot be built; the check is made here, on the plain
numbers, and `encode` (Sys2Proof/Decode.lean) goes through it.
-/

namespace Sys2Proof

/-- The four fields of a first word (R171) as numbers, and the second word where there is one. -/
structure RawInstr where
  op : Nat
  d : Nat
  a : Nat
  b : Nat
  second : Option Nat
deriving DecidableEq, Repr

/-- A field of the first word has four bits (R171). -/
def fieldInRange (n : Nat) : Bool := decide (n < 16)

/-- Two words when the opcode nibble is 0xE or 0xF, one word otherwise (R170). -/
def secondAsFormat (r : RawInstr) : Bool := r.second.isSome == decide (14 ≤ r.op)

/-- The second word is a Word (R173, R174). -/
def secondInRange (r : RawInstr) : Bool := r.second.all (fun n => decide (n < 65536))

/-- Every check of the cut (R170, R171). No combination of fields in range is ill-formed (R115). -/
def RawInstr.wellFormed (r : RawInstr) : Bool :=
  fieldInRange r.op && fieldInRange r.d && fieldInRange r.a && fieldInRange r.b
    && secondAsFormat r && secondInRange r

end Sys2Proof
end

