-- ==== Sys2Proof/Decode.lean ====
section
/-!
DEFINITION. The decoder (R170 to R185), total on any words and on any bytes, and after it the
encoder and the opcode table's rows.
-/

namespace Sys2Proof

/-! ## Fields of the first word (R171) -/

/-- `w[15:12]`, the opcode nibble. -/
def opField (w : Word) : Index := (w.extractLsb' 12 4).toFin

/-- `w[11:8]`. -/
def dField (w : Word) : Index := (w.extractLsb' 8 4).toFin

/-- `w[7:4]`. -/
def aField (w : Word) : Index := (w.extractLsb' 4 4).toFin

/-- `w[3:0]`: a source register in RRR, the secondary opcode in EXP and RX. -/
def bField (w : Word) : Index := (w.extractLsb' 0 4).toFin

/-- "two words when it is 0xE or 0xF, one word otherwise" (R170, R175). -/
def isTwoWord (w : Word) : Bool := decide (14 ≤ (opField w).val)

/-! ## The decoder -/

/-- The illegal-instruction trap, to which every unassigned selection decodes (R182). -/
def illegalTrap : Instr := .trap 0 0 0

/-- The RX selections (R180). -/
def decodeRX (w1 w2 : Word) : Instr :=
  match (bField w1).val with
  | 0 => .lea (dField w1) (aField w1) w2
  | 1 => .load (dField w1) (aField w1) w2
  | 2 => .store (dField w1) (aField w1) w2
  | _ => illegalTrap

/-- The EXP selections (R181). -/
def decodeEXP (w1 w2 : Word) : Instr :=
  match (bField w1).val with
  | 0 => .jump (dField w1) (aField w1) w2
  | 1 => .jumpc0 (dField w1) (aField w1) w2
  | 2 => .jumpc1 (dField w1) (aField w1) w2
  | 3 => .jal (dField w1) (aField w1) w2
  | 4 => .rfi (dField w1) (aField w1) w2
  | 5 => .halt (dField w1) (aField w1) w2
  | _ => illegalTrap

/-- `Decode(w1, w2)` of R185. The second argument is read for opcode nibbles 0xE and 0xF only. -/
def decode (w1 w2 : Word) : Instr :=
  match (opField w1).val with
  | 0x0 => .add (dField w1) (aField w1) (bField w1)
  | 0x1 => .sub (dField w1) (aField w1) (bField w1)
  | 0x2 => .mul (dField w1) (aField w1) (bField w1)
  | 0x3 => .div (dField w1) (aField w1) (bField w1)
  | 0x4 => .cmp (dField w1) (aField w1) (bField w1)
  | 0xD => .trap (dField w1) (aField w1) (bField w1)
  | 0xE => decodeEXP w1 w2
  | 0xF => decodeRX w1 w2
  | _ => illegalTrap

/-! ## Words and bytes -/

/-- The Word made of a high and a low byte, "high byte first" (R152). -/
def wordOfBytes (hi lo : Byte) : Word := hi ++ lo

/-- Bits 15:8 of a Word. -/
def highByte (w : Word) : Byte := w.extractLsb' 8 8

/-- Bits 7:0 of a Word. -/
def lowByte (w : Word) : Byte := w.extractLsb' 0 8

/-- A Word as its two bytes in image order (R152, R188). -/
def bytesOfWord (w : Word) : List Byte := [highByte w, lowByte w]

/-- Why a byte string holds no instruction. No fetch meets either: memory has a cell for every
address (R162) and `pc` wraps (R120). -/
inductive DecodeError where
  /-- fewer than two bytes: there is no first word -/
  | truncatedFirstWord
  /-- the first word's format has a second word (R175) and the bytes end before it -/
  | truncatedSecondWord
deriving DecidableEq, Repr

/-- What the decoder reads from a byte string. -/
inductive Decoded where
  /-- an instruction, and the bytes after it -/
  | instr (i : Instr) (rest : List Byte)
  /-- rejected, by name -/
  | rejected (why : DecodeError)
deriving DecidableEq, Repr

/-- Decoding is two-step: the format from word one, then the second word where the format has one
(R175), then `Decode` (R185). -/
def decodeBytes : List Byte → Decoded
  | hi :: lo :: rest =>
    if isTwoWord (wordOfBytes hi lo) then
      match rest with
      | hi2 :: lo2 :: rest2 => .instr (decode (wordOfBytes hi lo) (wordOfBytes hi2 lo2)) rest2
      | _ => .rejected .truncatedSecondWord
    else .instr (decode (wordOfBytes hi lo) 0) rest
  | _ => .rejected .truncatedFirstWord

/-- The instruction the decoder reads from the bits `w` of a table row, bit 0 the least significant
bit of the first word, bit 16 that of the second; bits from `nbits` up are 0. -/
def decodeTableWord (nbits w : Nat) : Option Instr :=
  let bits := w % 2 ^ nbits
  match decodeBytes (bytesOfWord (BitVec.ofNat 16 bits)
      ++ bytesOfWord (BitVec.ofNat 16 (bits / 65536))) with
  | .instr i _ => some i
  | .rejected _ => none

/-! ## The encoder -/

/-- The numbers an instruction is encoded with: R179 (RRR), R180 (RX), R181 (EXP). -/
def Instr.raw : Instr → RawInstr
  | .add d a b => ⟨0x0, d, a, b, none⟩
  | .sub d a b => ⟨0x1, d, a, b, none⟩
  | .mul d a b => ⟨0x2, d, a, b, none⟩
  | .div d a b => ⟨0x3, d, a, b, none⟩
  | .cmp d a b => ⟨0x4, d, a, b, none⟩
  | .trap d a b => ⟨0xD, d, a, b, none⟩
  | .lea d a disp => ⟨0xF, d, a, 0x0, some disp.toNat⟩
  | .load d a disp => ⟨0xF, d, a, 0x1, some disp.toNat⟩
  | .store d a disp => ⟨0xF, d, a, 0x2, some disp.toNat⟩
  | .jump d a disp => ⟨0xE, d, a, 0x0, some disp.toNat⟩
  | .jumpc0 k a disp => ⟨0xE, k, a, 0x1, some disp.toNat⟩
  | .jumpc1 k a disp => ⟨0xE, k, a, 0x2, some disp.toNat⟩
  | .jal d a disp => ⟨0xE, d, a, 0x3, some disp.toNat⟩
  | .rfi d a disp => ⟨0xE, d, a, 0x4, some disp.toNat⟩
  | .halt d a disp => ⟨0xE, d, a, 0x5, some disp.toNat⟩

/-- `op ∥ d ∥ a ∥ b` (R171, R185). -/
def packWord (op d a b : Nat) : Word :=
  BitVec.ofNat 4 op ++ BitVec.ofNat 4 d ++ BitVec.ofNat 4 a ++ BitVec.ofNat 4 b

/-- The words of a cut. -/
def RawInstr.words (r : RawInstr) : List Word :=
  packWord r.op r.d r.a r.b :: (r.second.map (BitVec.ofNat 16)).toList

/-- The words of an instruction, first word first. -/
def encode (i : Instr) : List Word := i.raw.words

/-- The words of an instruction as bytes in image order (R188). -/
def encodeBytes (i : Instr) : List Byte := (encode i).flatMap bytesOfWord

/-! ## The rows of the opcode table -/

/-- A row of spec/opcode_table.json: a first word `w` belongs to it when `w AND mask = pattern`. -/
structure OpcodeRow where
  mnemonic : String
  pattern : Word
  mask : Word
  words : Nat
deriving DecidableEq, Repr

/-- The fifteen rows, as the table has them. -/
def opcodeRows : List OpcodeRow :=
  [⟨"add", 0x0000, 0xF000, 1⟩, ⟨"sub", 0x1000, 0xF000, 1⟩, ⟨"mul", 0x2000, 0xF000, 1⟩,
   ⟨"div", 0x3000, 0xF000, 1⟩, ⟨"cmp", 0x4000, 0xF000, 1⟩, ⟨"trap", 0xD000, 0xF000, 1⟩,
   ⟨"lea", 0xF000, 0xF00F, 2⟩, ⟨"load", 0xF001, 0xF00F, 2⟩, ⟨"store", 0xF002, 0xF00F, 2⟩,
   ⟨"jump", 0xE000, 0xF00F, 2⟩, ⟨"jumpc0", 0xE001, 0xF00F, 2⟩, ⟨"jumpc1", 0xE002, 0xF00F, 2⟩,
   ⟨"jal", 0xE003, 0xF00F, 2⟩, ⟨"rfi", 0xE004, 0xF00F, 2⟩, ⟨"halt", 0xE005, 0xF00F, 2⟩]

/-- The row's mnemonic of an instruction. -/
def Instr.mnemonic : Instr → String
  | .add _ _ _ => "add"
  | .sub _ _ _ => "sub"
  | .mul _ _ _ => "mul"
  | .div _ _ _ => "div"
  | .cmp _ _ _ => "cmp"
  | .trap _ _ _ => "trap"
  | .lea _ _ _ => "lea"
  | .load _ _ _ => "load"
  | .store _ _ _ => "store"
  | .jump _ _ _ => "jump"
  | .jumpc0 _ _ _ => "jumpc0"
  | .jumpc1 _ _ _ => "jumpc1"
  | .jal _ _ _ => "jal"
  | .rfi _ _ _ => "rfi"
  | .halt _ _ _ => "halt"

end Sys2Proof
end

