-- ==== Sys2Proof/Config.lean ====
section
/-!
DEFINITION. The implementation parameters of R104. All are closed by the spec; the launch values
(`LAUNCH.vect`, `LAUNCH.mask`, `LAUNCH.ie`) are arguments of the Configure move and so stand in
no constant here. The hardware leaves no value free, so no opaque constant is needed.
-/

namespace Sys2Proof.Config

/-- `MEM_WORDS`: cells 0x0000 to 0xFFFF (R104, R132; D1). -/
def memWords : Nat := 65536

/-- The number of bytes the cells take in the model's byte list (log entry 1). -/
def memBytes : Nat := 131072

/-- `CC_REG`: the index of the condition-code register (R104, R113). -/
def ccReg : Index := 15

/-- What every cell holds after reset (R135): an unlisted byte of memory reads as this. -/
def resetByte : Byte := 0

end Sys2Proof.Config
end

