-- ==== Sys2Proof/Machine/State.lean ====
section
/-!
DEFINITION. The machine's state as plain data (R110), the moves of its environment (R299), the
reasons a step can stop, the state after reset (R135), and one named update per field.
-/

namespace Sys2Proof.Machine

/-- The processor states of R136. -/
inductive ProcState where
  /-- "construction complete, memory not yet guaranteed loaded" -/
  | initialising
  /-- "program loaded, awaiting run" -/
  | ready
  /-- "actively cycling" -/
  | executing
  /-- "terminal" -/
  | halt
deriving DecidableEq, Repr

/-- Main memory (R132): the listed bytes, every other byte reading as `Config.resetByte`. Byte `2k`
is bits 15:8 of cell `k` and byte `2k + 1` its bits 7:0, the order of the image (R152; log entry 1).
No access of the machine is narrower than a cell (R151). -/
abbrev Memory := List Host.Cell

/-- The cause labels of an entry (R251, R255): names of the event, stored in no register. -/
inductive Cause where
  /-- any first word that selects no instruction, and the word 0xD000 (R216) -/
  | illegalInstruction
  /-- Trap with fields other than (0,0,0) (R215) -/
  | trapInstruction
  /-- Div with a divisor register holding 0 (R203) -/
  | divideByZero
  /-- request `n` was taken by the interrupt check (R258) -/
  | interrupt (n : Index)
deriving DecidableEq, Repr

/-- The environment's moves, all of them (R299). -/
inductive HostMove where
  /-- construct the processor anew (R290) -/
  | reset
  /-- hand the loader a byte image (R292) -/
  | load (image : List Byte)
  /-- launch configuration (R293): each register given is written whole, each one not given is kept -/
  | configure (vect mask : Option Word) (ie : Option Bool)
  /-- the launch (R294) -/
  | run
  /-- suspend at a cycle boundary (R295) -/
  | pause
  /-- end the run at a cycle boundary (R295) -/
  | cancel
  /-- raise a set of interrupt requests (R256) -/
  | raiseIrq (set : Word)
  /-- the diagnostic read port (R273) -/
  | read
deriving DecidableEq, Repr

/-- Whose turn it is at a cycle boundary (R296: between two cycles the environment may make any
number of its moves). -/
inductive Turn where
  /-- the core performs its next cycle -/
  | core
  /-- the environment makes one move -/
  | host (m : HostMove)
deriving DecidableEq, Repr

/-- Everything the spec gives the machine (R110), and one field of the model's own, `schedule`. -/
structure State where
  /-- `R0` to `R15` (R111); entry 15 is the condition-code register (R113) -/
  regs : Vector Word 16
  /-- program counter (R120) -/
  pc : Word
  /-- instruction register (R121) -/
  ir : Word
  /-- address register (R122) -/
  adr : Word
  /-- data register (R123) -/
  dat : Word
  /-- enabled-interrupt mask (R124) -/
  mask : Word
  /-- pending-interrupt-request bit set (R125) -/
  req : Word
  /-- saved processor status: bit 0 `sys`, bit 1 `ie` (R126) -/
  rstat : Word
  /-- saved return pc (R127) -/
  rpc : Word
  /-- trap vector address (R128) -/
  vect : Word
  /-- supervisor mode (R129) -/
  sys : Bool
  /-- global interrupt enable (R130) -/
  ie : Bool
  /-- main memory (R132) -/
  mem : Memory
  /-- processor state machine (R136) -/
  state : ProcState
  /-- THE MODEL'S OWN (log entry 3): the turns to come; when it is empty every turn is the core's -/
  schedule : List Turn
deriving DecidableEq, Repr

/-- Reasons a step stops with a fault. There are none: the cycle is defined for every state (R296,
R308) and an out-of-range access cannot happen (R162: "a model needs no arm for it"). Safe: a fault
the hardware lacks is never reported (log entry 6). -/
inductive Fault where
deriving DecidableEq, Repr

/-- Reasons a step is refused. -/
inductive Refusal where
  /-- raised by an arm of `exec` whose instruction has no meaning yet, and by nothing else; safe. No
  arm of this model raises it. -/
  | notModelled (mnemonic : String)
deriving DecidableEq, Repr

/-! ## One update per field -/

/-- Replace the register file. -/
def State.setRegs (s : State) (v : Vector Word 16) : State := { s with regs := v }

/-- `pc <- v` (R105, section 6.2). -/
def State.setPc (s : State) (v : Word) : State := { s with pc := v }

/-- `ir <- v`. -/
def State.setIr (s : State) (v : Word) : State := { s with ir := v }

/-- `adr <- v`. -/
def State.setAdr (s : State) (v : Word) : State := { s with adr := v }

/-- `dat <- v`. -/
def State.setDat (s : State) (v : Word) : State := { s with dat := v }

/-- `mask <- v`. -/
def State.setMask (s : State) (v : Word) : State := { s with mask := v }

/-- `req <- v`. -/
def State.setReq (s : State) (v : Word) : State := { s with req := v }

/-- `rstat <- v`. -/
def State.setRstat (s : State) (v : Word) : State := { s with rstat := v }

/-- `rpc <- v`. -/
def State.setRpc (s : State) (v : Word) : State := { s with rpc := v }

/-- `vect <- v`. -/
def State.setVect (s : State) (v : Word) : State := { s with vect := v }

/-- `sys <- v`. -/
def State.setSys (s : State) (v : Bool) : State := { s with sys := v }

/-- `ie <- v`. -/
def State.setIe (s : State) (v : Bool) : State := { s with ie := v }

/-- Replace memory. -/
def State.setMem (s : State) (v : Memory) : State := { s with mem := v }

/-- `state <- v`. -/
def State.setState (s : State) (v : ProcState) : State := { s with state := v }

/-- Replace the turns to come (the model's own field). -/
def State.setSchedule (s : State) (v : List Turn) : State := { s with schedule := v }

/-! ## Reset -/

/-- A "fresh Processor" (R135): every Word 0x0000, every Boolean false, `state` Initialising. The
values of memory and `state` are the document's, those of the registers the spec's decision D24
(log entry 2); `schedule` is the model's own (log entry 3). -/
def State.reset : State where
  regs := Vector.replicate 16 0
  pc := 0
  ir := 0
  adr := 0
  dat := 0
  mask := 0
  req := 0
  rstat := 0
  rpc := 0
  vect := 0
  sys := false
  ie := false
  mem := []
  state := .initialising
  schedule := []

end Sys2Proof.Machine
end

