-- ==== Sys2Proof/Machine/Ops.lean ====
section
/-!
DEFINITION. The shared operations: registers, memory, the entry sequence of traps and interrupts
and the return from it.
-/

namespace Sys2Proof.Machine

/-- What a meaning answers. -/
abbrev Result := Host.Outcome State Fault Refusal

/-! ## Registers -/

/-- `x[i]`: read general register `i`; `x[15]` is the condition-code Word (R105, R113). -/
def readReg (s : State) (i : Index) : Word := s.regs[i]

/-- `x[i] <- v` through an instruction's destination port: for `i = 15` the write is discarded
(R114; D3). `R0` is an ordinary register (R112; D2). -/
def writeReg (s : State) (i : Index) (v : Word) : State :=
  if i = Config.ccReg then s else s.setRegs (s.regs.set i v)

/-- A Word with bit `i` made `b` and every other bit kept. -/
def setBit (w : Word) (i : Index) (b : Bool) : Word :=
  if b then w ||| BitVec.twoPow 16 i.val else w &&& ~~~(BitVec.twoPow 16 i.val)

/-! ## Memory -/

/-- The canonical form from byte address `lo` up: addresses strictly rise and exist, and no listed
byte equals what an unlisted one reads as. -/
def Memory.wfFrom (lo : Nat) : Memory → Bool
  | [] => true
  | (k, b) :: rest =>
    decide (lo ≤ k) && decide (k < Config.memBytes) && b != Config.resetByte
      && Memory.wfFrom (k + 1) rest

/-- Memory is in its one canonical form, so that equal memories are equal data. -/
def Memory.wf (m : Memory) : Bool := Memory.wfFrom 0 m

/-- One byte of memory; an unlisted one reads as its reset contents (R135). -/
def readByte (m : Memory) (addr : Nat) : Byte :=
  match m with
  | [] => Config.resetByte
  | (k, b) :: rest => if k = addr then b else readByte rest addr

/-- Put a byte at the head of the bytes above it, unless it is what an unlisted byte reads as. -/
def consByte (addr : Nat) (v : Byte) (m : Memory) : Memory :=
  if v = Config.resetByte then m else (addr, v) :: m

/-- Write one byte, keeping the canonical form. -/
def writeByte (m : Memory) (addr : Nat) (v : Byte) : Memory :=
  match m with
  | [] => consByte addr v []
  | (k, b) :: rest =>
    if addr < k then consByte addr v ((k, b) :: rest)
    else if addr = k then consByte addr v rest
    else (k, b) :: writeByte rest addr v

/-- Where the high byte of a cell stands in the byte list (log entry 1). -/
def highByteAddr (addr : Word) : Nat := 2 * uint addr

/-- Where the low byte of a cell stands in the byte list. -/
def lowByteAddr (addr : Word) : Nat := 2 * uint addr + 1

/-- `MemRead(addr, 1)`: the Word in the cell (R151). -/
def readWord (m : Memory) (addr : Word) : Word :=
  wordOfBytes (readByte m (highByteAddr addr)) (readByte m (lowByteAddr addr))

/-- `MemWrite(addr, 1, v)`: the Word put in the cell, and no other cell changed (R151). -/
def writeWord (m : Memory) (addr : Word) (v : Word) : Memory :=
  writeByte (writeByte m (highByteAddr addr) (highByte v)) (lowByteAddr addr) (lowByte v)

/-! ## Traps and interrupts -/

/-- What an entry saves into `rstat`: bit 1 is `ie`, bit 0 is `sys`, bits 15:2 are 0 (R126; D17). -/
def savedStatus (s : State) : Word :=
  (BitVec.ofBool s.ie ++ BitVec.ofBool s.sys).zeroExtend 16

/-- `TrapEntry(cause)` (R264), the one sequence for every trap and every interrupt. The cause is a
label and is stored nowhere (R251; D32). All right-hand sides are the values before the sequence. -/
def trapEntry (_cause : Cause) (s : State) : State :=
  { s with rpc := s.pc, rstat := savedStatus s, pc := s.vect, sys := true, ie := false }

/-- `raise cause`: end the instruction here and enter the handler (R105, section 6.2). -/
def raise (cause : Cause) (s : State) : Result := .next (trapEntry cause s)

/-- The return from a trap or an interrupt (R240, R267; C2): `sys` is cleared whatever `rstat[0]`
holds, and `rpc` and `rstat` keep their values. -/
def returnFromTrap (s : State) : State :=
  { s with pc := s.rpc, ie := bitOf s.rstat 1, sys := false }

/-- The optional numbering of the cause labels (R251; D32). It appears in no register. -/
def Cause.number : Cause → Nat
  | .illegalInstruction => 0
  | .trapInstruction => 1
  | .divideByZero => 2
  | .interrupt n => 16 + n.val

end Sys2Proof.Machine
end

