-- ==== Sys2Proof/Machine/Flags.lean ====
section
/-!
DEFINITION. The condition-code flags (R113), the condition-code interface (R116), and every flag
computation the spec gives (R200 to R203, R205, R210).
-/

namespace Sys2Proof.Machine

/-- The eleven flags of `R15`, by the short names of R113. -/
inductive CCFlag where
  /-- IntegerGreaterThan -/
  | gtI
  /-- NaturalGreaterThan -/
  | gtN
  /-- Equals -/
  | eq
  /-- NaturalLessThan -/
  | ltN
  /-- IntegerLessThan -/
  | ltI
  /-- IntegerOverflow -/
  | ovI
  /-- NaturalOverflow -/
  | ovN
  /-- Carry -/
  | cy
  /-- StackOverflow: named by the document, written by no instruction (R118) -/
  | sov
  /-- StackUnderflow: written by no instruction (R118) -/
  | sun
  /-- LogicFunctionResult: written by no instruction (R118) -/
  | lfr
deriving DecidableEq, Repr

/-- "bit positions 0–10 respectively" (R113). -/
def CCFlag.bit : CCFlag → Index
  | .gtI => 0
  | .gtN => 1
  | .eq => 2
  | .ltN => 3
  | .ltI => 4
  | .ovI => 5
  | .ovN => 6
  | .cy => 7
  | .sov => 8
  | .sun => 9
  | .lfr => 10

/-- Bit `k` of `R15`, as Jumpc0 and Jumpc1 test it (R231, R232). -/
def ccBit (s : State) (k : Index) : Bool := bitOf (readReg s Config.ccReg) k

/-- `CC.f`: one flag of `R15` (R105, section 6.2). -/
def readFlag (s : State) (f : CCFlag) : Bool := ccBit s f.bit

/-- `CC.f <- b`: sets bit `f` of `R15` and leaves the other 15 bits as they were (R116). -/
def writeFlag (s : State) (f : CCFlag) (b : Bool) : State :=
  s.setRegs (s.regs.set Config.ccReg (setBit (readReg s Config.ccReg) f.bit b))

/-! ## Arithmetic -/

/-- The adder's exact sum for Add (R200). -/
def addSum (A B : Word) : Nat := uint A + uint B

/-- The adder's exact sum for Sub, `A + ~B + 1` (R201; D11). -/
def subSum (A B : Word) : Nat := uint A + uint (~~~B) + 1

/-- IntegerOverflow after Add: operands of one sign, a result of the other (R200). -/
def addOvI (A B r : Word) : Bool := A.msb == B.msb && r.msb != A.msb

/-- IntegerOverflow after Sub (R201). -/
def subOvI (A B r : Word) : Bool := A.msb != B.msb && r.msb != A.msb

/-- The carry out of bit 15 of the adder (R200, R201). -/
def adderCarry (sum : Nat) : Bool := decide (65535 < sum)

/-- NaturalOverflow after Sub: the natural difference would be negative (R201). -/
def subOvN (A B : Word) : Bool := decide (uint A < uint B)

/-- The exact natural product (R202). -/
def mulNat (A B : Word) : Nat := uint A * uint B

/-- The exact integer product (R202). -/
def mulInt (A B : Word) : Int := sint A * sint B

/-- IntegerOverflow after Mul (R202). -/
def mulOvI (p : Int) : Bool := decide (p < -32768) || decide (32767 < p)

/-- NaturalOverflow after Mul (R202). -/
def mulOvN (p : Nat) : Bool := decide (65535 < p)

/-- The integer quotient, rounded toward zero (R203; D13). -/
def divQuotient (A B : Word) : Int := Int.tdiv (sint A) (sint B)

/-- IntegerOverflow after Div (R203). -/
def divOvI (q : Int) : Bool := decide (32767 < q)

/-- The three flags of Add and Sub (R205): each written to 1 or 0 (R117; D4, D35). -/
def writeAdderFlags (s : State) (ovI ovN cy : Bool) : State :=
  writeFlag (writeFlag (writeFlag s .ovI ovI) .ovN ovN) .cy cy

/-- The two flags of Mul and Div (R205): `cy` is not written (D12, D13). -/
def writeOverflowFlags (s : State) (ovI ovN : Bool) : State :=
  writeFlag (writeFlag s .ovI ovI) .ovN ovN

/-! ## Compare -/

/-- The five comparison flags, each written to 1 or 0 (R210). -/
def writeCompareFlags (s : State) (A B : Word) : State :=
  let s := writeFlag s .gtI (decide (sint B < sint A))
  let s := writeFlag s .gtN (decide (uint B < uint A))
  let s := writeFlag s .eq (decide (A = B))
  let s := writeFlag s .ltN (decide (uint A < uint B))
  writeFlag s .ltI (decide (sint A < sint B))

end Sys2Proof.Machine
end

