-- ==== Sys2Proof/Machine/Arithmetic.lean ====
section
/-!
DEFINITION. Add, Sub, Mul, Div (40_arithmetic.md). Sources are read before anything is written
(R115); a destination of 15 drops the result and keeps the flags (R114, R204).
-/

namespace Sys2Proof.Machine

/-- Add (R200). -/
def execAdd (d a b : Index) (s : State) : Result :=
  let A := readReg s a
  let B := readReg s b
  let r := truncNat (addSum A B)
  .next (writeAdderFlags (writeReg s d r)
    (addOvI A B r) (adderCarry (addSum A B)) (adderCarry (addSum A B)))

/-- Sub (R201), done by the adder as `A + ~B + 1`. -/
def execSub (d a b : Index) (s : State) : Result :=
  let A := readReg s a
  let B := readReg s b
  let r := truncNat (subSum A B)
  .next (writeAdderFlags (writeReg s d r)
    (subOvI A B r) (subOvN A B) (adderCarry (subSum A B)))

/-- Mul (R202): the high half of the product is discarded. -/
def execMul (d a b : Index) (s : State) : Result :=
  let A := readReg s a
  let B := readReg s b
  let r := truncNat (mulNat A B)
  .next (writeOverflowFlags (writeReg s d r) (mulOvI (mulInt A B)) (mulOvN (mulNat A B)))

/-- Div (R203): a divisor of 0 raises DivideByZero before any write (R252; D14). -/
def execDiv (d a b : Index) (s : State) : Result :=
  let A := readReg s a
  let B := readReg s b
  if B = 0 then raise .divideByZero s
  else
    let q := divQuotient A B
    .next (writeOverflowFlags (writeReg s d (truncInt q)) (divOvI q) false)

end Sys2Proof.Machine
end

