-- ==== Sys2Proof/Machine/Compare.lean ====
section
/-!
DEFINITION. Cmp (41_compare.md).
-/

namespace Sys2Proof.Machine

/-- Cmp (R210): both operands are read before a flag is written (R115); the `d` field is ignored
(R183; D15). -/
def execCmp (_d a b : Index) (s : State) : Result :=
  .next (writeCompareFlags s (readReg s a) (readReg s b))

end Sys2Proof.Machine
end

