-- ==== Sys2Proof/Machine/Operands.lean ====
section
/-!
DEFINITION. The operand forms beyond a plain register: the effective address (R177, R220).
-/

namespace Sys2Proof.Machine

/-- `ea = trunc_16(uint(x[a]) + uint(disp))` (R177, R220, R235 a; D10): the one addressing mode, for
Lea, Load, Store and all four jumps. -/
def effectiveAddress (s : State) (a : Index) (disp : Word) : Word :=
  truncNat (uint (readReg s a) + uint disp)

/-- Form the effective address and copy it to `adr` (R122, R220): the state after it. -/
def withAddress (s : State) (a : Index) (disp : Word) : State :=
  s.setAdr (effectiveAddress s a disp)

end Sys2Proof.Machine
end

