-- ==== Sys2Proof/Machine/Jump.lean ====
section
/-!
DEFINITION. Jump, Jumpc0, Jumpc1, Jal (44_jump.md). `pc` holds the address of the next instruction
in sequence (R178); a jump that is not taken leaves it there. No delay slot, no flag, no trap (R235).
-/

namespace Sys2Proof.Machine

/-- `pc <- ea`, with the effective address copied to `adr` first (R235). -/
def jumpTo (s : State) (a : Index) (disp : Word) : State :=
  (withAddress s a disp).setPc (effectiveAddress s a disp)

/-- A conditional transfer: `adr` is written whether or not the jump is taken (R231, R232). -/
def jumpWhen (taken : Bool) (s : State) (a : Index) (disp : Word) : State :=
  if taken then jumpTo s a disp else withAddress s a disp

/-- Jump (R230); the `d` field is ignored (R183). -/
def execJump (_d a : Index) (disp : Word) (s : State) : Result := .next (jumpTo s a disp)

/-- Jumpc0 (R231): taken when bit `k` of `R15` is 0. -/
def execJumpc0 (k a : Index) (disp : Word) (s : State) : Result :=
  .next (jumpWhen (!ccBit s k) s a disp)

/-- Jumpc1 (R232): taken when bit `k` of `R15` is 1. -/
def execJumpc1 (k a : Index) (disp : Word) (s : State) : Result :=
  .next (jumpWhen (ccBit s k) s a disp)

/-- Jal (R233): the target is formed from `x[a]` before the link is written (D30); the link is the
address of the instruction after the Jal. -/
def execJal (d a : Index) (disp : Word) (s : State) : Result :=
  .next ((writeReg (withAddress s a disp) d s.pc).setPc (effectiveAddress s a disp))

end Sys2Proof.Machine
end

