-- ==== Sys2Proof/Machine/MemoryReference.lean ====
section
/-!
DEFINITION. Lea, Load, Store (43_memory_reference.md). None writes a flag, none traps (R220; D36).
-/

namespace Sys2Proof.Machine

/-- Lea (R221): memory is not accessed. -/
def execLea (d a : Index) (disp : Word) (s : State) : Result :=
  .next (writeReg (withAddress s a disp) d (effectiveAddress s a disp))

/-- Load (R222): the read is made and `dat` written also when `d = 15` (R123). -/
def execLoad (d a : Index) (disp : Word) (s : State) : Result :=
  let v := readWord s.mem (effectiveAddress s a disp)
  .next (writeReg ((withAddress s a disp).setDat v) d v)

/-- Store (R223): the register named by `d` is a source here. -/
def execStore (d a : Index) (disp : Word) (s : State) : Result :=
  let v := readReg s d
  .next (((withAddress s a disp).setDat v).setMem
    (writeWord s.mem (effectiveAddress s a disp) v))

end Sys2Proof.Machine
end

