-- ==== Sys2Proof/Machine/System.lean ====
section
/-!
DEFINITION. Rfi and Halt (45_system_exp.md). Neither is privileged (R271; D20).
-/

namespace Sys2Proof.Machine

/-- Rfi (R240); its fields and second word are ignored (R183). -/
def execRfi (_d _a : Index) (_disp : Word) (s : State) : Result := .next (returnFromTrap s)

/-- Halt (R241): `state <- Halt` and nothing else; its fields and second word are ignored (R183). -/
def execHalt (_d _a : Index) (_disp : Word) (s : State) : Result := .next (s.setState .halt)

end Sys2Proof.Machine
end

