-- ==== Sys2Proof/Machine/Trap.lean ====
section
/-!
DEFINITION. The Trap instruction and the illegal-instruction trap (42_trap.md).
-/

namespace Sys2Proof.Machine

/-- The fields decide the cause label and nothing else (R215, R216; D16). -/
def trapCause (d a b : Index) : Cause :=
  if d = 0 ∧ a = 0 ∧ b = 0 then .illegalInstruction else .trapInstruction

/-- Trap (R215) and, for the all-zero fields, the illegal-instruction trap (R216). Taken whatever
`ie` and `sys` are (R130). -/
def execTrap (d a b : Index) (s : State) : Result := raise (trapCause d a b) s

end Sys2Proof.Machine
end

