-- ==== Sys2Proof/Machine/Dispatch.lean ====
section
/-! DEFINITION. The meaning of each instruction, one arm per constructor. -/

namespace Sys2Proof.Machine

def exec (i : Instr) (s : State) : Host.Outcome State Fault Refusal :=
  match i with
  | .add d a b => Sys2Proof.Machine.execAdd d a b s
  | .sub d a b => Sys2Proof.Machine.execSub d a b s
  | .mul d a b => Sys2Proof.Machine.execMul d a b s
  | .div d a b => Sys2Proof.Machine.execDiv d a b s
  | .cmp d a b => Sys2Proof.Machine.execCmp d a b s
  | .trap d a b => Sys2Proof.Machine.execTrap d a b s
  | .lea d a disp => Sys2Proof.Machine.execLea d a disp s
  | .load d a disp => Sys2Proof.Machine.execLoad d a disp s
  | .store d a disp => Sys2Proof.Machine.execStore d a disp s
  | .jump d a disp => Sys2Proof.Machine.execJump d a disp s
  | .jumpc0 k a disp => Sys2Proof.Machine.execJumpc0 k a disp s
  | .jumpc1 k a disp => Sys2Proof.Machine.execJumpc1 k a disp s
  | .jal d a disp => Sys2Proof.Machine.execJal d a disp s
  | .rfi d a disp => Sys2Proof.Machine.execRfi d a disp s
  | .halt d a disp => Sys2Proof.Machine.execHalt d a disp s

end Sys2Proof.Machine
end

