-- ==== Sys2Proof/Machine/Fetch.lean ====
section
/-!
DEFINITION. Fetch and the program counter (R175, R178).
-/

namespace Sys2Proof.Machine

/-- `Fetch()`: read the Word at `pc` and advance `pc` by one, modulo 65536 (R178, R120; D9). A fetch
never writes memory (R160). -/
def fetchWord (s : State) : Word × State :=
  (readWord s.mem s.pc, s.setPc (truncNat (uint s.pc + 1)))

/-- The first word, copied to `ir` (R121, R178). -/
def fetchFirst (s : State) : Word × State :=
  let (w1, s1) := fetchWord s
  (w1, s1.setIr w1)

/-- The instruction phase up to execution (R178): the first word, then the second word where the
format has one (also for an unassigned secondary opcode, R175), then `Decode`. -/
def fetchInstr (s : State) : Instr × State :=
  let (w1, s1) := fetchFirst s
  if isTwoWord w1 then
    let (w2, s2) := fetchWord s1
    (decode w1 w2, s2.setAdr w2)
  else (decode w1 0, s1)

end Sys2Proof.Machine
end

