-- ==== Sys2Proof/Machine/Interrupts.lean ====
section
/-!
DEFINITION. The interrupt check (R257 to R259).
-/

namespace Sys2Proof.Machine

/-- The sixteen request numbers, highest priority first (R255, R259; D22). -/
def requestNumbers : List Index := [0, 1, 2, 3, 4, 5, 6, 7, 8, 9, 10, 11, 12, 13, 14, 15]

/-- The least `i` with `w[i] = 1` (R258). -/
def lowestSet (w : Word) : Option Index := requestNumbers.find? (bitOf w)

/-- Which request the check takes: none while `ie` is false, else the lowest one that `mask` lets
through (R257, R258, R259). -/
def interruptTaken (s : State) : Option Index :=
  if s.ie then lowestSet (s.req &&& s.mask) else none

/-- Taking interrupt `n` clears `req[n]` and no other bit, then enters the handler (R258, R259). -/
def takeInterrupt (n : Index) (s : State) : State :=
  trapEntry (.interrupt n) (s.setReq (setBit s.req n false))

/-- `InterruptCheck()` (R258), made only if `state` is still Executing (R296). -/
def interruptCheck (s : State) : State :=
  if s.state = .executing then
    match interruptTaken s with
    | some n => takeInterrupt n s
    | none => s
  else s

end Sys2Proof.Machine
end

