-- ==== Sys2Proof/Machine/Cycle.lean ====
section
/-!
DEFINITION. The cycle (R296), the core's turn, and the cause labels of a cycle (R251).
-/

namespace Sys2Proof.Machine

/-- What follows execution in a cycle: the interrupt check (R258, R296). -/
def finishCycle : Result → Result
  | .next s => .next (interruptCheck s)
  | .fault r => .fault r
  | .refused r => .refused r

/-- `Cycle()` (R296), for a state that is Executing. -/
def cycle (s : State) : Result := finishCycle (exec (fetchInstr s).1 (fetchInstr s).2)

/-- The core's turn: "The core fetches and executes only while `state = Executing`" (R136); in any
other state the turn passes with every item of state kept (R274, R297; log entry 4). -/
def coreTurn (s : State) : Result := if s.state = .executing then cycle s else .next s

/-- The synchronous exception an instruction raises in a state, if any: at most one (R250, R262). -/
def raisedBy (i : Instr) (s : State) : Option Cause :=
  match i with
  | .trap d a b => some (trapCause d a b)
  | .div _ _ b => if readReg s b = 0 then some .divideByZero else none
  | .add _ _ _ => none
  | .sub _ _ _ => none
  | .mul _ _ _ => none
  | .cmp _ _ _ => none
  | .lea _ _ _ => none
  | .load _ _ _ => none
  | .store _ _ _ => none
  | .jump _ _ _ => none
  | .jumpc0 _ _ _ => none
  | .jumpc1 _ _ _ => none
  | .jal _ _ _ => none
  | .rfi _ _ _ => none
  | .halt _ _ _ => none

/-- The interrupt that ends a cycle, if any, as a label. -/
def interruptLabel (s : State) : Option Cause :=
  if s.state = .executing then (interruptTaken s).map Cause.interrupt else none

/-- The label of the entry a cycle makes, if it makes one (R251): at most one, since an entry clears
`ie` before the check (R258, R261). -/
def cycleEvent (s : State) : Option Cause :=
  match raisedBy (fetchInstr s).1 (fetchInstr s).2 with
  | some c => some c
  | none =>
    match exec (fetchInstr s).1 (fetchInstr s).2 with
    | .next t => interruptLabel t
    | .fault _ => none
    | .refused _ => none

end Sys2Proof.Machine
end

