-- ==== Sys2Proof/Machine/HostPort.lean ====
section
/-!
DEFINITION. The environment's moves (R299): the loader, the launch configuration, Run, Pause, Cancel,
interrupt requests, the diagnostic port and Reset. A move in a state where it is not allowed has no
effect (R299).
-/

namespace Sys2Proof.Machine

/-- What a move returns to the host (R292, R273; log entry 8). -/
inductive HostReply where
  /-- nothing is returned -/
  | silent
  /-- `Ok`: the image is in memory (R292) -/
  | loaded
  /-- `SizeExceeded`: the image has more than 65536 words and nothing changed (R292) -/
  | sizeExceeded
  /-- the diagnostic port's view, every item of R110 (R273) -/
  | view (s : State)
deriving DecidableEq, Repr

/-- Load and Configure are allowed while `state` is Initialising or Ready (R292, R293). -/
def betweenRuns (s : State) : Bool := s.state == .initialising || s.state == .ready

/-- The loader's writes (R292): from cell `k` up, each pair of bytes a Word, high byte first; a
trailing odd byte is ignored. -/
def loadImage (m : Memory) (k : Nat) : List Byte → Memory
  | hi :: lo :: rest => loadImage (writeWord m (truncNat k) (wordOfBytes hi lo)) (k + 1) rest
  | [_] => m
  | [] => m

/-- The number of whole words of an image, `floor(L / 2)` (R292). -/
def imageWords (image : List Byte) : Nat := image.length / 2

/-- `Load(B)` (R292; C8, C10, C14): atomic, and it changes no register. -/
def hostLoad (image : List Byte) (s : State) : State × HostReply :=
  if betweenRuns s then
    if Config.memWords < imageWords image then (s, .sizeExceeded)
    else ((s.setMem (loadImage s.mem 0 image)).setState .ready, .loaded)
  else (s, .silent)

/-- The launch configuration (R293; D25): each register given is replaced whole. -/
def hostConfigure (vect mask : Option Word) (ie : Option Bool) (s : State) : State :=
  if betweenRuns s then
    ((s.setVect (vect.getD s.vect)).setMask (mask.getD s.mask)).setIe (ie.getD s.ie)
  else s

/-- A command that moves `state` from one value to another and is ignored elsewhere (R294, R295). -/
def moveState (source target : ProcState) (s : State) : State :=
  if s.state = source then s.setState target else s

/-- `req <- req OR S`, in any state but Halt (R256; C17). -/
def hostRaise (set : Word) (s : State) : State :=
  if s.state = .halt then s else s.setReq (s.req ||| set)

/-- Reset (R290): every item of state at its value of R135. The turns to come are the environment's,
not the core's, and stay (log entry 11). -/
def hostReset (s : State) : State := State.reset.setSchedule s.schedule

/-- One move of the environment (R299): the state after it and what the host is told. -/
def hostMove (m : HostMove) (s : State) : State × HostReply :=
  match m with
  | .reset => (hostReset s, .silent)
  | .load image => hostLoad image s
  | .configure vect mask ie => (hostConfigure vect mask ie s, .silent)
  | .run => (moveState .ready .executing s, .silent)
  | .pause => (moveState .executing .ready s, .silent)
  | .cancel => (moveState .executing .halt s, .silent)
  | .raiseIrq set => (hostRaise set s, .silent)
  | .read => (s, .view s)

end Sys2Proof.Machine
end

