-- ==== Sys2Proof/Machine/Step.lean ====
section
/-!
DEFINITION. The step: the next turn of the schedule, the core's cycle (R296) or one whole move of the
environment (R299), each at a cycle boundary.
-/

namespace Sys2Proof.Machine

/-- The turn a step takes: the head of the schedule, the core's where it is empty (log entry 3). -/
def nextTurn (s : State) : Turn := s.schedule.headD .core

/-- The state a step's turn is taken in: that turn removed from the schedule. -/
def takeTurn (s : State) : State := s.setSchedule s.schedule.tail

/-- One step. -/
def step (s : State) : Host.Outcome State Fault Refusal :=
  match nextTurn s with
  | .core => coreTurn (takeTurn s)
  | .host m => .next (hostMove m (takeTurn s)).1

/-- The label of the entry a step makes, if it makes one (R251). -/
def stepEvent (s : State) : Option Cause :=
  match nextTurn s with
  | .core => if s.state = .executing then cycleEvent (takeTurn s) else none
  | .host _ => none

/-- The instruction whose bits are `w` (those from `nbits` up are 0) stored in the two cells at `pc`,
`state` Executing, and the next turn the core's: what Load and Run do (R292, R294; log entry 5), so
that the next step runs exactly it. -/
def State.withFetchWord (s : State) (nbits w : Nat) : State :=
  let bits := w % 2 ^ nbits
  let m1 := writeWord s.mem s.pc (truncNat bits)
  let m2 := writeWord m1 (truncNat (uint s.pc + 1)) (truncNat (bits / 65536))
  let s2 := (s.setMem m2).setState .executing
  match nextTurn s with
  | .core => s2
  | .host _ => s2.setSchedule (.core :: s.schedule)

end Sys2Proof.Machine
end

