-- ==== Sys2Proof/Safety.lean ====
section
/-!
DEFINITION. The terms claims use: the state a program sees, legal states, what a step keeps, runs.
-/

namespace Sys2Proof.Machine

/-- Every item of state but the general registers is the same in both states; memory is compared
byte by byte, as it is read. -/
structure SameButRegs (s t : State) : Prop where
  pc : t.pc = s.pc
  ir : t.ir = s.ir
  adr : t.adr = s.adr
  dat : t.dat = s.dat
  mask : t.mask = s.mask
  req : t.req = s.req
  rstat : t.rstat = s.rstat
  rpc : t.rpc = s.rpc
  vect : t.vect = s.vect
  sys : t.sys = s.sys
  ie : t.ie = s.ie
  state : t.state = s.state
  schedule : t.schedule = s.schedule
  mem : ∀ addr, readByte t.mem addr = readByte s.mem addr

/-- The interrupt, mode and state-machine registers are the same in both states. -/
structure SameControl (s t : State) : Prop where
  mask : t.mask = s.mask
  req : t.req = s.req
  rstat : t.rstat = s.rstat
  rpc : t.rpc = s.rpc
  vect : t.vect = s.vect
  sys : t.sys = s.sys
  ie : t.ie = s.ie
  state : t.state = s.state
  schedule : t.schedule = s.schedule

/-- All sixteen registers, `R15` among them, hold the same Words. -/
def SameRegs (s t : State) : Prop := ∀ r, readReg t r = readReg s r

/-- Register `d` received `v` through the destination port, and no other register changed; for
`d = 15` nothing is written (R114). -/
def OnlyRegWritten (d : Index) (v : Word) (s t : State) : Prop :=
  ∀ r, readReg t r = if r = d ∧ d ≠ 15 then v else readReg s r

/-- As `OnlyRegWritten`, for an instruction that also writes flags: nothing is said of `R15`. -/
def OnlyRegWrittenBesideFlags (d : Index) (v : Word) (s t : State) : Prop :=
  ∀ r, r ≠ 15 → readReg t r = if r = d then v else readReg s r

/-- Every bit of `R15` outside the listed positions is the same. -/
def SameCCBut (written : List Index) (s t : State) : Prop :=
  ∀ k, k ∉ written → ccBit t k = ccBit s k

/-- Every byte of memory reads the same. -/
def SameMem (s t : State) : Prop := ∀ addr, readByte t.mem addr = readByte s.mem addr

/-- An integer that 16-bit two's complement holds (R205). -/
def FitsInteger (n : Int) : Prop := -32768 ≤ n ∧ n ≤ 32767

/-- The first word with the given opcode nibble, fields and secondary opcode, by arithmetic (R171). -/
def codeWord (op : Nat) (d a : Index) (b : Nat) : Word :=
  truncNat (4096 * op + 256 * d.val + 16 * a.val + b)

/-- The first words that select no instruction (R182), by arithmetic. -/
def SelectsNothing (w : Word) : Prop :=
  (0x5 ≤ uint w / 4096 ∧ uint w / 4096 ≤ 0xC)
    ∨ (uint w / 4096 = 0xF ∧ 0x3 ≤ uint w % 16)
    ∨ (uint w / 4096 = 0xE ∧ 0x6 ≤ uint w % 16)

/-- Two states alike in every item but `sys` and the bit of `rstat` it is saved into. -/
structure AlikeButMode (s t : State) : Prop where
  regs : t.regs = s.regs
  pc : t.pc = s.pc
  ir : t.ir = s.ir
  adr : t.adr = s.adr
  dat : t.dat = s.dat
  mask : t.mask = s.mask
  req : t.req = s.req
  rstat : ∀ k : Index, k ≠ 0 → bitOf t.rstat k = bitOf s.rstat k
  rpc : t.rpc = s.rpc
  vect : t.vect = s.vect
  ie : t.ie = s.ie
  mem : t.mem = s.mem
  state : t.state = s.state
  schedule : t.schedule = s.schedule

/-- What the reserved and unwritten bits read as, and memory's canonical form: R114 and R118 (bits
15:8 of `R15` are 0), R126 (bits 15:2 of `rstat` are 0). -/
structure State.Legal (s : State) : Prop where
  mem : s.mem.wf = true
  cc : ∀ k : Index, 8 ≤ k.val → ccBit s k = false
  rstat : ∀ k : Index, 2 ≤ k.val → bitOf s.rstat k = false

/-- No interrupt can be taken now or after any return: `ie` is false and so is the saved `ie`
(R268). -/
def InterruptsOff (s : State) : Prop := s.ie = false ∧ bitOf s.rstat 1 = false

/-- A step of the core's own: its turn, while Executing. -/
def CoreSteps (s : State) : Prop := nextTurn s = .core ∧ s.state = .executing

/-- The instruction a step of the core runs. -/
def fetched (s : State) : Instr := (fetchInstr (takeTurn s)).1

/-- The state a step of the core runs it in. -/
def fetchedState (s : State) : State := (fetchInstr (takeTurn s)).2

/-- The instructions that write flags (R115). -/
def writesFlags (i : Instr) : Bool :=
  match i with
  | .add _ _ _ => true
  | .sub _ _ _ => true
  | .mul _ _ _ => true
  | .div _ _ _ => true
  | .cmp _ _ _ => true
  | .trap _ _ _ => false
  | .lea _ _ _ => false
  | .load _ _ _ => false
  | .store _ _ _ => false
  | .jump _ _ _ => false
  | .jumpc0 _ _ _ => false
  | .jumpc1 _ _ _ => false
  | .jal _ _ _ => false
  | .rfi _ _ _ => false
  | .halt _ _ _ => false

end Sys2Proof.Machine
end

