-- ==== Sys2Proof/Certificates/Slice0/Obligations.lean ====
section
/-!
DEFINITION. The statements for the provers. A docstring names the rule of spec/ a statement
formalises. Where the rule's text is marked there as a decision (D<n>), the docstring says so: the
spec marks that point as its own choice (log entry 10).
-/

open Sys2Proof Sys2Proof.Machine

/-! ## Encoding -/

/-- Every instruction, with every operand at every value, is read back from its encoding, whatever
bytes follow (30_encoding.md; field places and numbers are the spec's decisions D5, D6, D7). -/
def Obligations.DecodeOfEncodedBytes : Prop :=
  ∀ (i : Instr) (rest : List Byte), decodeBytes (encodeBytes i ++ rest) = .instr i rest

/-- R185 in full: the decoder on every pair of words, the round trip of the RRR instructions, and
what the illegal words decode to and re-encode as. -/
def Obligations.DecoderIsTheTableOfR185 : Prop :=
  (∀ (d a b : Index) (w2 : Word),
    decode (codeWord 0x0 d a b) w2 = .add d a b ∧ decode (codeWord 0x1 d a b) w2 = .sub d a b
    ∧ decode (codeWord 0x2 d a b) w2 = .mul d a b ∧ decode (codeWord 0x3 d a b) w2 = .div d a b
    ∧ decode (codeWord 0x4 d a b) w2 = .cmp d a b ∧ decode (codeWord 0xD d a b) w2 = .trap d a b)
  ∧ (∀ (d a : Index) (w2 : Word),
    decode (codeWord 0xF d a 0x0) w2 = .lea d a w2 ∧ decode (codeWord 0xF d a 0x1) w2 = .load d a w2
    ∧ decode (codeWord 0xF d a 0x2) w2 = .store d a w2
    ∧ decode (codeWord 0xE d a 0x0) w2 = .jump d a w2
    ∧ decode (codeWord 0xE d a 0x1) w2 = .jumpc0 d a w2
    ∧ decode (codeWord 0xE d a 0x2) w2 = .jumpc1 d a w2
    ∧ decode (codeWord 0xE d a 0x3) w2 = .jal d a w2
    ∧ decode (codeWord 0xE d a 0x4) w2 = .rfi d a w2
    ∧ decode (codeWord 0xE d a 0x5) w2 = .halt d a w2)
  ∧ (∀ w1 w2 : Word, SelectsNothing w1 →
    decode w1 w2 = .trap 0 0 0 ∧ encode (decode w1 w2) = [0xD000])
  ∧ (∀ w w2 : Word, uint w / 4096 ∈ [0x0, 0x1, 0x2, 0x3, 0x4, 0xD] → encode (decode w w2) = [w])

/-- A first word that matches a row of spec/opcode_table.json decodes to that row's instruction, and
one that matches no row to the illegal-instruction trap (30_encoding.md section 3; D5 to D8). -/
def Obligations.OpcodeRowsSelectTheirInstruction : Prop :=
  (∀ row ∈ opcodeRows, ∀ w1 w2 : Word, w1 &&& row.mask = row.pattern →
    (decode w1 w2).mnemonic = row.mnemonic ∧ (isTwoWord w1 = true ↔ row.words = 2))
  ∧ (∀ w1 w2 : Word, (∀ row ∈ opcodeRows, w1 &&& row.mask ≠ row.pattern) →
    decode w1 w2 = .trap 0 0 0)

/-- Words written out from the spec's encodings (95_test_vectors.md S2, S9, parts 2.6 to 2.9). -/
def Obligations.SampleWordsDecode : Prop :=
  decode 0x0123 0 = .add 1 2 3 ∧ decode 0x4F23 0 = .cmp 0xF 2 3 ∧ decode 0xF121 0x0005 = .load 1 2 5
  ∧ decode 0xED03 0x0008 = .jal 13 0 8 ∧ decode 0xE7A4 0xBEEF = .rfi 7 0xA 0xBEEF
  ∧ decode 0x5ABC 0 = .trap 0 0 0 ∧ decode 0xE006 0x1234 = .trap 0 0 0

/-- The opcode nibble of the first word alone decides the length, one word or two; the fetch moves `pc`
by it (30_encoding.md sections 1 and 2, R170, R175, R178; the last is the spec's decisions D8, that
the second word is always fetched, and D9, that `pc` moves in the fetch). -/
def Obligations.OpcodeNibbleDecidesLength : Prop :=
  (∀ w : Word, isTwoWord w = true ↔ uint w / 4096 = 0xE ∨ uint w / 4096 = 0xF)
  ∧ (∀ i : Instr, ((encode i).length = 1 ∨ (encode i).length = 2)
      ∧ ((encode i).length = 2 ↔ ∃ w ∈ (encode i).head?, isTwoWord w = true))
  ∧ (∀ s : State, (fetchInstr s).2.pc
      = s.pc + (if isTwoWord (readWord s.mem s.pc) = true then 2 else 1))

/-! ## The step -/

/-- A step runs the decoded instruction (70_reset_and_hazards.md section 2, 30_encoding.md section
2). When it is the core's turn, `state` is Executing and the bytes of the two cells at `pc` decode to
`i`, the step is `exec i` in the state where `pc` is past the instruction's words, `ir` holds the
first and `adr`, for two words, the second, followed by the interrupt check (D9, D21, D27). -/
def Obligations.StepRunsDecodedInstruction : Prop :=
  ∀ (s : State) (i : Instr) (rest : List Byte), CoreSteps s →
    decodeBytes (bytesOfWord (readWord s.mem s.pc) ++ bytesOfWord (readWord s.mem (s.pc + 1)))
      = .instr i rest →
    ∃ t, exec i
        (if 0xE000 ≤ uint (readWord s.mem s.pc) then
          { takeTurn s with pc := s.pc + 2, ir := readWord s.mem s.pc, adr := readWord s.mem (s.pc + 1) }
        else { takeTurn s with pc := s.pc + 1, ir := readWord s.mem s.pc }) = .next t
      ∧ step s = .next (interruptCheck t)

/-- On the environment's turn a step is that one move, whole, and nothing of the core's
(70_reset_and_hazards.md R299; that turns are listed in `schedule` is the model's choice, log entry
3). -/
def Obligations.HostTurnIsOneWholeMove : Prop :=
  ∀ (s : State) (m : HostMove) (rest : List Turn), s.schedule = .host m :: rest →
    step s = .next (hostMove m (s.setSchedule rest)).1 ∧ stepEvent s = none

/-- Outside Executing the core's turn changes no item of state (10_state.md section 7; that the turn
passes and does not stop is the model's choice, log entry 4). -/
def Obligations.CoreIsIdleOutsideExecuting : Prop :=
  ∀ s : State, nextTurn s = .core → s.state ≠ .executing → step s = .next (takeTurn s)

/-- The step is total: no state is stuck, faults or is refused (70_reset_and_hazards.md R308, which
the spec derives). -/
def Obligations.EveryStepAnswersNext : Prop :=
  ∀ s : State, ∃ t, step s = .next t

/-- The scratch registers of one cycle (10_state.md section 4, R121 to R123; the spec's decision
D27): `ir` is the first word; a one-word instruction leaves `adr`; only Load and Store write `dat`. -/
def Obligations.ScratchRegistersOfACycle : Prop :=
  ∀ s t : State, CoreSteps s → step s = .next t →
    t.ir = readWord s.mem s.pc
    ∧ (isTwoWord (readWord s.mem s.pc) = false → t.adr = s.adr)
    ∧ (SelectsNothing (readWord s.mem s.pc) → isTwoWord (readWord s.mem s.pc) = true →
        t.adr = readWord s.mem (s.pc + 1))
    ∧ (t.dat ≠ s.dat → ∃ d a disp, fetched s = .load d a disp ∨ fetched s = .store d a disp)

/-! ## Flags -/

/-- R116: a flag write sets that one bit of `R15` and alters nothing else, in `R15` or anywhere; after
any number of such writes every bit that none of them names is as it was. -/
def Obligations.FlagWriteTouchesOneBit : Prop :=
  (∀ (s : State) (f : CCFlag) (v : Bool),
    readFlag (writeFlag s f v) f = v
    ∧ (∀ k, k ≠ f.bit → ccBit (writeFlag s f v) k = ccBit s k)
    ∧ (∀ r, r ≠ 15 → readReg (writeFlag s f v) r = readReg s r)
    ∧ SameButRegs s (writeFlag s f v))
  ∧ (∀ (writes : List (CCFlag × Bool)) (s : State) (k : Index),
      (∀ p ∈ writes, k ≠ p.1.bit) →
      ccBit (writes.foldl (fun u p => writeFlag u p.1 p.2) s) k = ccBit s k)

/-- `R15` changes only in a step that runs Add, Sub, Mul, Div or Cmp, or in a Reset (10_state.md
section 3, R114, R117; D3, D4). -/
def Obligations.ConditionCodesChangeOnlyByTheirWriters : Prop :=
  ∀ s t : State, step s = .next t → readReg t 15 ≠ readReg s 15 →
    (CoreSteps s ∧ writesFlags (fetched s) = true) ∨ nextTurn s = .host .reset

/-! ## Arithmetic and compare -/

/-- Add (40_arithmetic.md R200, R205; D3 for `d = 15`, D4 and D35 for the flags written): the sum
modulo 65536, the three flags by what fits, the frame. -/
def Obligations.AddResultFlagsFrame : Prop :=
  ∀ (d a b : Index) (s : State), ∃ t, exec (.add d a b) s = .next t
    ∧ OnlyRegWrittenBesideFlags d (truncNat (uint (readReg s a) + uint (readReg s b))) s t
    ∧ (ccBit t 5 = true ↔ ¬ FitsInteger (sint (readReg s a) + sint (readReg s b)))
    ∧ (ccBit t 6 = true ↔ 65535 < uint (readReg s a) + uint (readReg s b))
    ∧ (ccBit t 7 = true ↔ 65535 < uint (readReg s a) + uint (readReg s b))
    ∧ SameCCBut [5, 6, 7] s t ∧ SameButRegs s t

/-- Sub (40_arithmetic.md R201, R205; D3, D4, D35, and D11 for the carry: 1 means no borrow). -/
def Obligations.SubResultFlagsFrame : Prop :=
  ∀ (d a b : Index) (s : State), ∃ t, exec (.sub d a b) s = .next t
    ∧ OnlyRegWrittenBesideFlags d
        (truncInt ((uint (readReg s a) : Int) - (uint (readReg s b) : Int))) s t
    ∧ (ccBit t 5 = true ↔ ¬ FitsInteger (sint (readReg s a) - sint (readReg s b)))
    ∧ (ccBit t 6 = true ↔ uint (readReg s a) < uint (readReg s b))
    ∧ (ccBit t 7 = true ↔ uint (readReg s b) ≤ uint (readReg s a))
    ∧ SameCCBut [5, 6, 7] s t ∧ SameButRegs s t

/-- Mul (40_arithmetic.md R202, R204, R205; D3, D4, D12): the result is the product modulo 65536 in
both readings, and `cy` is kept. -/
def Obligations.MulResultFlagsFrame : Prop :=
  ∀ (d a b : Index) (s : State), ∃ t, exec (.mul d a b) s = .next t
    ∧ OnlyRegWrittenBesideFlags d (truncNat (uint (readReg s a) * uint (readReg s b))) s t
    ∧ OnlyRegWrittenBesideFlags d (truncInt (sint (readReg s a) * sint (readReg s b))) s t
    ∧ (ccBit t 5 = true ↔ ¬ FitsInteger (sint (readReg s a) * sint (readReg s b)))
    ∧ (ccBit t 6 = true ↔ 65535 < uint (readReg s a) * uint (readReg s b))
    ∧ SameCCBut [5, 6] s t ∧ SameButRegs s t

/-- Div by a divisor that is not 0 (40_arithmetic.md R203, R205; D3, D4, D13): the integer quotient
rounded toward zero, that is the `q` with `|q| * |y|` not above `|x|` and nearest it, of the sign of
the two signs; `ovI` for -32768 / -1 alone, `ovN` cleared, `cy` kept. -/
def Obligations.DivResultFlagsFrame : Prop :=
  ∀ (d a b : Index) (s : State), readReg s b ≠ 0 →
    ∃ t, ∃ q : Int, exec (.div d a b) s = .next t
      ∧ q.natAbs = (sint (readReg s a)).natAbs / (sint (readReg s b)).natAbs
      ∧ (0 < sint (readReg s a) * sint (readReg s b) → 0 ≤ q)
      ∧ (sint (readReg s a) * sint (readReg s b) < 0 → q ≤ 0)
      ∧ OnlyRegWrittenBesideFlags d (truncInt q) s t
      ∧ (ccBit t 5 = true ↔ readReg s a = 0x8000 ∧ readReg s b = 0xFFFF)
      ∧ ccBit t 6 = false
      ∧ SameCCBut [5, 6] s t ∧ SameButRegs s t

/-- Div by 0 traps and computes nothing (40_arithmetic.md R203, 60_exceptions.md R252, R264; D14,
D17): no register, no flag, no byte of memory changes. -/
def Obligations.DivByZeroEntersHandler : Prop :=
  ∀ (d a b : Index) (s : State), readReg s b = 0 →
    ∃ t, exec (.div d a b) s = .next t
      ∧ t.rpc = s.pc ∧ uint t.rstat = 2 * s.ie.toNat + s.sys.toNat ∧ t.pc = s.vect
      ∧ t.sys = true ∧ t.ie = false
      ∧ SameRegs s t ∧ SameMem s t ∧ t.ir = s.ir ∧ t.adr = s.adr ∧ t.dat = s.dat
      ∧ t.mask = s.mask ∧ t.req = s.req ∧ t.vect = s.vect ∧ t.state = s.state
      ∧ t.schedule = s.schedule

/-- Cmp (41_compare.md R210; D15: the operands are the `a` and `b` fields). -/
def Obligations.CmpFlagsFrame : Prop :=
  ∀ (d a b : Index) (s : State), ∃ t, exec (.cmp d a b) s = .next t
    ∧ (ccBit t 0 = true ↔ sint (readReg s b) < sint (readReg s a))
    ∧ (ccBit t 1 = true ↔ uint (readReg s b) < uint (readReg s a))
    ∧ (ccBit t 2 = true ↔ readReg s a = readReg s b)
    ∧ (ccBit t 3 = true ↔ uint (readReg s a) < uint (readReg s b))
    ∧ (ccBit t 4 = true ↔ sint (readReg s a) < sint (readReg s b))
    ∧ (∀ r, r ≠ 15 → readReg t r = readReg s r)
    ∧ SameCCBut [0, 1, 2, 3, 4] s t ∧ SameButRegs s t

/-- After Cmp the five comparison bits hold one of exactly five patterns, and the two readings
disagree exactly when the operands' top bits differ (41_compare.md R210, its table; D15). -/
def Obligations.CmpLeavesOneOfFivePatterns : Prop :=
  ∀ (d a b : Index) (s : State), ∃ t, exec (.cmp d a b) s = .next t
    ∧ uint (readReg t 15) % 32 ∈ [0x04, 0x03, 0x18, 0x12, 0x09]
    ∧ (uint (readReg t 15) % 32 = 0x04 ↔ readReg s a = readReg s b)
    ∧ (uint (readReg t 15) % 32 ∈ [0x12, 0x09] ↔ (readReg s a).msb ≠ (readReg s b).msb)

/-! ## Trap and illegal encodings -/

/-- Trap, for every triple of fields, the all-zero one among them (42_trap.md R215, R216; D16, D17):
the entry sequence and nothing else, whatever `ie` and `sys` are. -/
def Obligations.TrapEntersHandler : Prop :=
  ∀ (d a b : Index) (s : State), ∃ t, exec (.trap d a b) s = .next t
    ∧ t.rpc = s.pc ∧ uint t.rstat = 2 * s.ie.toNat + s.sys.toNat ∧ t.pc = s.vect
    ∧ t.sys = true ∧ t.ie = false
    ∧ SameRegs s t ∧ SameMem s t ∧ t.ir = s.ir ∧ t.adr = s.adr ∧ t.dat = s.dat
    ∧ t.mask = s.mask ∧ t.req = s.req ∧ t.vect = s.vect ∧ t.state = s.state
    ∧ t.schedule = s.schedule

/-- A step on a first word that selects no instruction (30_encoding.md R182, 42_trap.md R216; D8, D9,
D17): the handler is entered with `rpc` past the whole encoding, the second word of a two-word format
is in `adr`, and no request is taken in that step. -/
def Obligations.IllegalWordEntersHandler : Prop :=
  ∀ s : State, CoreSteps s → SelectsNothing (readWord s.mem s.pc) →
    stepEvent s = some .illegalInstruction
    ∧ ∃ t, step s = .next t
      ∧ t.rpc = s.pc + (if 0xE000 ≤ uint (readWord s.mem s.pc) then 2 else 1)
      ∧ t.adr = (if 0xE000 ≤ uint (readWord s.mem s.pc) then readWord s.mem (s.pc + 1) else s.adr)
      ∧ t.ir = readWord s.mem s.pc
      ∧ uint t.rstat = 2 * s.ie.toNat + s.sys.toNat ∧ t.pc = s.vect ∧ t.sys = true ∧ t.ie = false
      ∧ SameRegs s t ∧ SameMem s t ∧ t.dat = s.dat ∧ t.mask = s.mask ∧ t.req = s.req
      ∧ t.vect = s.vect ∧ t.state = s.state

/-! ## Memory reference -/

/-- R221: Lea, its encoding, result and frame. -/
def Obligations.LeaResultFrame : Prop :=
  ∀ (d a : Index) (disp : Word) (s : State),
    decode (codeWord 0xF d a 0x0) disp = .lea d a disp
    ∧ ∃ t, exec (.lea d a disp) s = .next t
      ∧ t.adr = truncNat (uint (readReg s a) + uint disp)
      ∧ OnlyRegWritten d (truncNat (uint (readReg s a) + uint disp)) s t
      ∧ t.pc = s.pc ∧ t.ir = s.ir ∧ t.dat = s.dat ∧ SameControl s t ∧ SameMem s t

/-- R222: Load, its encoding, result and frame; for `d = 15` the read is made and `R15` is kept. -/
def Obligations.LoadResultFrame : Prop :=
  ∀ (d a : Index) (disp : Word) (s : State),
    decode (codeWord 0xF d a 0x1) disp = .load d a disp
    ∧ ∃ t, exec (.load d a disp) s = .next t
      ∧ t.adr = truncNat (uint (readReg s a) + uint disp)
      ∧ t.dat = readWord s.mem (truncNat (uint (readReg s a) + uint disp))
      ∧ OnlyRegWritten d (readWord s.mem (truncNat (uint (readReg s a) + uint disp))) s t
      ∧ t.pc = s.pc ∧ t.ir = s.ir ∧ SameControl s t ∧ SameMem s t

/-- R223: Store, its encoding, the one cell written, and the frame: every byte outside the two of the
cell at the effective address reads as before. The premise is memory's canonical form, which every
step keeps (`StepKeepsLegal`). -/
def Obligations.StoreResultFrame : Prop :=
  ∀ (d a : Index) (disp : Word) (s : State), s.mem.wf = true →
    decode (codeWord 0xF d a 0x2) disp = .store d a disp
    ∧ ∃ t, exec (.store d a disp) s = .next t
      ∧ t.adr = effectiveAddress s a disp
      ∧ effectiveAddress s a disp = truncNat (uint (readReg s a) + uint disp)
      ∧ t.dat = readReg s d
      ∧ readWord t.mem (effectiveAddress s a disp) = readReg s d
      ∧ (∀ addr, addr ≠ highByteAddr (effectiveAddress s a disp) →
          addr ≠ lowByteAddr (effectiveAddress s a disp) → readByte t.mem addr = readByte s.mem addr)
      ∧ SameRegs s t ∧ t.pc = s.pc ∧ t.ir = s.ir ∧ SameControl s t

/-- A Store to the cell that is about to be fetched is seen by that fetch, with no instruction between
(70_reset_and_hazards.md section 4, R306; the spec's decision D28). -/
def Obligations.StoreSeenByTheNextFetch : Prop :=
  ∀ (d a : Index) (disp : Word) (s : State), s.mem.wf = true → effectiveAddress s a disp = s.pc →
    ∃ t, exec (.store d a disp) s = .next t
      ∧ (fetchFirst t).1 = readReg s d ∧ (fetchInstr t).2.ir = readReg s d

/-- A Store to the cell of the next instruction's second word is seen by the fetch of it: it is the
operand word the decoder gets (70_reset_and_hazards.md section 4, R306; the spec's decisions D8, D9,
D28). -/
def Obligations.StoreSeenAsTheNextSecondWord : Prop :=
  ∀ (d a : Index) (disp : Word) (s : State), s.mem.wf = true →
    effectiveAddress s a disp = s.pc + 1 → isTwoWord (readWord s.mem s.pc) = true →
    ∃ t, exec (.store d a disp) s = .next t
      ∧ (fetchInstr t).1 = decode (readWord s.mem s.pc) (readReg s d)
      ∧ (fetchInstr t).2.adr = readReg s d

/-- Canonical memories that read alike at every cell are the same data (20_memory.md section 1; the
list form is the model's choice, log entry 1). -/
def Obligations.CanonicalMemoryIsWhatItReadsAs : Prop :=
  ∀ m n : Memory, m.wf = true → n.wf = true → (∀ addr : Word, readWord m addr = readWord n addr) →
    m = n

/-- A cell changes in a step only by a Store to it, by a Load of an image that covers it, or by Reset
(10_state.md section 6, 20_memory.md section 3; D28: a fetch never writes). -/
def Obligations.MemoryChangesOnlyByStoreLoadReset : Prop :=
  ∀ (s t : State) (addr : Word), s.mem.wf = true → step s = .next t →
    readWord t.mem addr ≠ readWord s.mem addr →
    (CoreSteps s ∧ ∃ d a disp, fetched s = .store d a disp
        ∧ effectiveAddress s a disp = addr ∧ readWord t.mem addr = readReg s d)
    ∨ (∃ image, nextTurn s = .host (.load image) ∧ (s.state = .initialising ∨ s.state = .ready)
        ∧ 2 * uint addr + 1 < image.length)
    ∨ nextTurn s = .host .reset

/-! ## Jumps -/

/-- Jump (44_jump.md R230, R235; D7, D10). -/
def Obligations.JumpResultFrame : Prop :=
  ∀ (d a : Index) (disp : Word) (s : State), ∃ t, exec (.jump d a disp) s = .next t
    ∧ t.pc = truncNat (uint (readReg s a) + uint disp)
    ∧ t.adr = truncNat (uint (readReg s a) + uint disp)
    ∧ SameRegs s t ∧ t.ir = s.ir ∧ t.dat = s.dat ∧ SameControl s t ∧ SameMem s t

/-- Jumpc0 (44_jump.md R231, R235; D7, D10, D29): taken when bit `k` of `R15` is 0; `adr` is written
either way. -/
def Obligations.Jumpc0ResultFrame : Prop :=
  ∀ (k a : Index) (disp : Word) (s : State), ∃ t, exec (.jumpc0 k a disp) s = .next t
    ∧ t.pc = (if uint (readReg s 15) / 2 ^ k.val % 2 = 0 then
        truncNat (uint (readReg s a) + uint disp) else s.pc)
    ∧ t.adr = truncNat (uint (readReg s a) + uint disp)
    ∧ SameRegs s t ∧ t.ir = s.ir ∧ t.dat = s.dat ∧ SameControl s t ∧ SameMem s t

/-- Jumpc1 (44_jump.md R232, R235; D7, D10, D29): taken when bit `k` of `R15` is 1. -/
def Obligations.Jumpc1ResultFrame : Prop :=
  ∀ (k a : Index) (disp : Word) (s : State), ∃ t, exec (.jumpc1 k a disp) s = .next t
    ∧ t.pc = (if uint (readReg s 15) / 2 ^ k.val % 2 = 1 then
        truncNat (uint (readReg s a) + uint disp) else s.pc)
    ∧ t.adr = truncNat (uint (readReg s a) + uint disp)
    ∧ SameRegs s t ∧ t.ir = s.ir ∧ t.dat = s.dat ∧ SameControl s t ∧ SameMem s t

/-- For `k` 8 to 15 the bit is always 0, so Jumpc0 is always taken and Jumpc1 never (44_jump.md R231,
R232, 10_state.md R118; D29). The premise is the invariant `StepKeepsLegal` states. -/
def Obligations.JumpsOnUnwrittenBits : Prop :=
  ∀ (k a : Index) (disp : Word) (s : State), s.Legal → 8 ≤ k.val →
    (∃ t, exec (.jumpc0 k a disp) s = .next t ∧ t.pc = effectiveAddress s a disp)
    ∧ (∃ t, exec (.jumpc1 k a disp) s = .next t ∧ t.pc = s.pc)

/-- Jal (44_jump.md R233, R235; D3 for `d = 15`, D7, D10, D30): the target is formed before the link
is written, so `d = a` works. -/
def Obligations.JalResultFrame : Prop :=
  ∀ (d a : Index) (disp : Word) (s : State), ∃ t, exec (.jal d a disp) s = .next t
    ∧ t.pc = truncNat (uint (readReg s a) + uint disp)
    ∧ t.adr = truncNat (uint (readReg s a) + uint disp)
    ∧ OnlyRegWritten d s.pc s t
    ∧ t.ir = s.ir ∧ t.dat = s.dat ∧ SameControl s t ∧ SameMem s t

/-! ## Rfi and Halt -/

/-- Rfi (45_system_exp.md R240, 60_exceptions.md R267; the spec's decisions D17 for the bit of
`rstat`, D18 for the effect, D19): the return restores `pc` and `ie`, clears `sys` whatever `rstat[0]`
holds, and changes nothing else. -/
def Obligations.RfiResultFrame : Prop :=
  ∀ (d a : Index) (disp : Word) (s : State), ∃ t, exec (.rfi d a disp) s = .next t
    ∧ t.pc = s.rpc ∧ t.ie = decide (uint s.rstat / 2 % 2 = 1) ∧ t.sys = false
    ∧ SameRegs s t ∧ SameMem s t ∧ t.ir = s.ir ∧ t.adr = s.adr ∧ t.dat = s.dat
    ∧ t.mask = s.mask ∧ t.req = s.req ∧ t.rstat = s.rstat ∧ t.rpc = s.rpc ∧ t.vect = s.vect
    ∧ t.state = s.state ∧ t.schedule = s.schedule

/-- Halt (45_system_exp.md R241; D19): `state` becomes Halt and nothing else changes. -/
def Obligations.HaltResultFrame : Prop :=
  ∀ (d a : Index) (disp : Word) (s : State),
    ∃ t, exec (.halt d a disp) s = .next t ∧ t = { s with state := .halt }

/-- A step that halts makes no interrupt check: a pending, enabled request stays and no handler is
entered (45_system_exp.md R241, 60_exceptions.md R258; D19, D21). -/
def Obligations.HaltSkipsTheInterruptCheck : Prop :=
  ∀ (s : State) (d a : Index) (disp : Word), CoreSteps s → fetched s = .halt d a disp →
    stepEvent s = none
    ∧ ∃ t, step s = .next t ∧ t.state = .halt ∧ t.pc = s.pc + 2 ∧ t.req = s.req ∧ t.ie = s.ie
      ∧ t.sys = s.sys ∧ t.rpc = s.rpc ∧ t.rstat = s.rstat ∧ SameRegs s t ∧ SameMem s t

/-! ## Entry, return, interrupts -/

/-- The entry sequence (60_exceptions.md R264, R265; D9, D17): what it saves, where it goes, and that
it touches nothing else. -/
def Obligations.EntrySequence : Prop :=
  ∀ (c : Cause) (s : State),
    (trapEntry c s).rpc = s.pc
    ∧ (∀ k : Index, bitOf (trapEntry c s).rstat k
        = if k = 0 then s.sys else if k = 1 then s.ie else false)
    ∧ (trapEntry c s).pc = s.vect ∧ (trapEntry c s).sys = true ∧ (trapEntry c s).ie = false
    ∧ SameRegs s (trapEntry c s) ∧ SameMem s (trapEntry c s)
    ∧ (trapEntry c s).ir = s.ir ∧ (trapEntry c s).adr = s.adr ∧ (trapEntry c s).dat = s.dat
    ∧ (trapEntry c s).mask = s.mask ∧ (trapEntry c s).req = s.req ∧ (trapEntry c s).vect = s.vect
    ∧ (trapEntry c s).state = s.state ∧ (trapEntry c s).schedule = s.schedule

/-- The return undoes the entry: `pc` and `ie` come back as they were, `sys` is cleared, and every
register, flag and cell is as it was (60_exceptions.md R265, R268; D9, D17, D18). -/
def Obligations.ReturnUndoesEntry : Prop :=
  ∀ (c : Cause) (d a : Index) (disp : Word) (s : State),
    ∃ t, exec (.rfi d a disp) (trapEntry c s) = .next t
      ∧ t.pc = s.pc ∧ t.ie = s.ie ∧ t.sys = false ∧ SameRegs s t ∧ SameMem s t
      ∧ t.mask = s.mask ∧ t.req = s.req ∧ t.vect = s.vect

/-- The interrupt check takes the lowest request that is pending and unmasked while `ie` is true,
clears that one bit of `req`, and enters the handler (60_exceptions.md R258, R259, R264; D17, D21,
D22). -/
def Obligations.InterruptCheckTakesTheLowest : Prop :=
  ∀ (s : State) (n : Index), s.state = .executing → s.ie = true →
    bitOf s.req n = true → bitOf s.mask n = true →
    (∀ m : Index, m < n → bitOf s.req m = true → bitOf s.mask m = false) →
    (∀ k : Index, bitOf (interruptCheck s).req k = (bitOf s.req k && k != n))
    ∧ (interruptCheck s).rpc = s.pc
    ∧ uint (interruptCheck s).rstat = 2 + s.sys.toNat
    ∧ (interruptCheck s).pc = s.vect ∧ (interruptCheck s).sys = true
    ∧ (interruptCheck s).ie = false
    ∧ SameRegs s (interruptCheck s) ∧ SameMem s (interruptCheck s)
    ∧ (interruptCheck s).mask = s.mask ∧ (interruptCheck s).vect = s.vect
    ∧ (interruptCheck s).state = .executing

/-- No interrupt is taken while `ie` is false, while every pending request is masked, or while the
core is not Executing: the check then changes nothing (60_exceptions.md R257, R258, 10_state.md R130;
D21). -/
def Obligations.InterruptCheckWaits : Prop :=
  ∀ s : State,
    (s.ie = false ∨ s.state ≠ .executing
      ∨ ∀ k : Index, bitOf s.req k = true → bitOf s.mask k = false) →
    interruptCheck s = s

/-- In a cycle whose instruction traps, the pending requests wait (60_exceptions.md R261, which the
spec derives): the step's event is the trap, and `req` keeps every bit. -/
def Obligations.TrapBeatsInterrupt : Prop :=
  ∀ (s : State) (c : Cause), CoreSteps s → raisedBy (fetched s) (fetchedState s) = some c →
    stepEvent s = some c ∧ step s = .next (trapEntry c (fetchedState s))
    ∧ (fetchedState s).req = s.req

/-- A request leaves `req` in a step of the core only when it is the interrupt taken, and only an
unmasked pending request is ever taken; every other bit, masked ones among them, stays latched
(60_exceptions.md R256, R257, R259; D22, D23). -/
def Obligations.RequestsStayLatched : Prop :=
  ∀ s t : State, CoreSteps s → step s = .next t →
    (∀ k : Index, bitOf t.req k
      = (bitOf s.req k && stepEvent s != some (.interrupt k)))
    ∧ (∀ n : Index, stepEvent s = some (.interrupt n) →
        bitOf s.req n = true ∧ bitOf s.mask n = true)

/-- Every labelled event of a step is one entry, and the label says which: a synchronous cause enters
from the state the fetch left, an interrupt from the state the instruction left, with its request
cleared (60_exceptions.md R251, R258, R264; D21, D22, D32). -/
def Obligations.EventIsOneEntry : Prop :=
  ∀ (s t : State) (c : Cause), step s = .next t → stepEvent s = some c →
    ((∀ n, c ≠ .interrupt n) → t = trapEntry c (fetchedState s))
    ∧ (∀ n, c = .interrupt n → ∃ v, exec (fetched s) (fetchedState s) = .next v
        ∧ v.ie = true ∧ v.state = .executing
        ∧ t = trapEntry c (v.setReq (setBit v.req n false)))
    ∧ t.pc = s.vect ∧ t.sys = true ∧ t.ie = false

/-- Every entry, whatever its cause, goes to the one address in `vect`, in the same way for every cause;
every Word is a legal value of it; and `vect` is written by no step but Reset and the launch
configuration (10_state.md R128, R131, 60_exceptions.md R251, R264, 70_reset_and_hazards.md R293; the
spec's decisions D25 for the launch configuration and D32 for the cause, log entry 7; that `vect` may
be given alone is log entry 9). -/
def Obligations.VectIsOneAddressWrittenByTheHost : Prop :=
  (∀ (c c' : Cause) (s : State), (trapEntry c s).pc = s.vect ∧ trapEntry c s = trapEntry c' s)
  ∧ (∀ (v : Word) (s : State), s.state = .initialising ∨ s.state = .ready →
      (hostMove (.configure (some v) none none) s).1.vect = v)
  ∧ (∀ s t : State, step s = .next t → t.vect ≠ s.vect →
      nextTurn s = .host .reset
      ∨ ∃ v m e, nextTurn s = .host (.configure (some v) m e) ∧ t.vect = v
          ∧ (s.state = .initialising ∨ s.state = .ready))

/-- `mask` is written by no step but Reset and the launch configuration (10_state.md R124, R131;
D25). -/
def Obligations.MaskIsWrittenByTheHostOnly : Prop :=
  ∀ s t : State, step s = .next t → t.mask ≠ s.mask →
    nextTurn s = .host .reset
    ∨ ∃ v m e, nextTurn s = .host (.configure v (some m) e) ∧ t.mask = m
        ∧ (s.state = .initialising ∨ s.state = .ready)

/-- `rpc` is written by every entry, with the value `pc` had at that moment, and by Reset (to 0x0000,
the spec's decision D24); no other step writes it, and Rfi reads it. That no other step writes it is
said of `rstat` too (10_state.md R126, R127; D9, D17). -/
def Obligations.RpcIsWrittenByEntriesOnly : Prop :=
  (∀ (c : Cause) (s : State), (trapEntry c s).rpc = s.pc)
  ∧ (∀ s t : State, step s = .next t → t.rpc ≠ s.rpc ∨ t.rstat ≠ s.rstat →
      (∃ c u, stepEvent s = some c ∧ t = trapEntry c u) ∨ nextTurn s = .host .reset)
  ∧ (∀ (d a : Index) (disp : Word) (s : State),
      ∃ t, exec (.rfi d a disp) s = .next t ∧ t.pc = s.rpc ∧ t.rpc = s.rpc)
  ∧ State.reset.rpc = 0

/-- Supervisor mode is entered by an entry and by nothing else, and left by Rfi or Reset and by
nothing else (10_state.md R129, 60_exceptions.md R270). -/
def Obligations.SupervisorModeOnlyByEntry : Prop :=
  ∀ s t : State, step s = .next t →
    ((stepEvent s).isSome → t.sys = true)
    ∧ (s.sys = false → t.sys = true → (stepEvent s).isSome)
    ∧ (s.sys = true → t.sys = false →
        (CoreSteps s ∧ ∃ d a disp, fetched s = .rfi d a disp) ∨ nextTurn s = .host .reset)

/-- The mode restricts nothing and is seen by nothing: two states alike but for `sys` and the saved
`sys` step to states alike but for them, whatever the instruction or the environment's move
(60_exceptions.md R271; D20). -/
def Obligations.ModeRestrictsNothing : Prop :=
  ∀ s t : State, AlikeButMode s t →
    ∃ s' t', step s = .next s' ∧ step t = .next t' ∧ AlikeButMode s' t'

/-- While `ie` and the saved `ie` are false, every step but a launch configuration keeps them so and
takes no interrupt: a run launched with `ie` false never takes one (60_exceptions.md R268, which the
spec derives; D17, D18, D24). -/
def Obligations.InterruptsStayOff : Prop :=
  InterruptsOff State.reset
  ∧ ∀ s t : State, InterruptsOff s → step s = .next t →
    (∀ v m e, nextTurn s ≠ .host (.configure v m e)) →
    InterruptsOff t ∧ ∀ n, stepEvent s ≠ some (.interrupt n)

/-! ## Invariants and reset -/

/-- Every step keeps memory canonical, bits 15:8 of `R15` zero (10_state.md R114, R118; D3) and bits
15:2 of `rstat` zero (10_state.md R126; D17). -/
def Obligations.StepKeepsLegal : Prop :=
  ∀ s t : State, s.Legal → step s = .next t → t.Legal

/-- The state after reset meets the invariant of `StepKeepsLegal` (10_state.md R135; D24). -/
def Obligations.ResetIsLegal : Prop := State.reset.Legal

/-- The state after reset (10_state.md R135, 70_reset_and_hazards.md R290). Memory and `state` are
the document's; the registers' values are the spec's decision D24, log entry 2; `schedule` is the
model's own, log entry 3. -/
def Obligations.ResetValues : Prop :=
  (∀ addr, readWord State.reset.mem addr = 0) ∧ State.reset.state = .initialising
  ∧ (∀ r, readReg State.reset r = 0)
  ∧ State.reset.pc = 0 ∧ State.reset.ir = 0 ∧ State.reset.adr = 0 ∧ State.reset.dat = 0
  ∧ State.reset.mask = 0 ∧ State.reset.req = 0 ∧ State.reset.rstat = 0 ∧ State.reset.rpc = 0
  ∧ State.reset.vect = 0 ∧ State.reset.sys = false ∧ State.reset.ie = false
  ∧ State.reset.schedule = []

/-! ## The processor state machine and the host -/

/-- The transitions of `state`, and no others (70_reset_and_hazards.md R291, 10_state.md R136; D26). -/
def Obligations.ProcessorStateTransitions : Prop :=
  ∀ s t : State, step s = .next t → t.state ≠ s.state →
    (nextTurn s = .host .reset ∧ t.state = .initialising)
    ∨ (∃ image, nextTurn s = .host (.load image) ∧ s.state = .initialising ∧ t.state = .ready)
    ∨ (nextTurn s = .host .run ∧ s.state = .ready ∧ t.state = .executing)
    ∨ (nextTurn s = .host .pause ∧ s.state = .executing ∧ t.state = .ready)
    ∨ (nextTurn s = .host .cancel ∧ s.state = .executing ∧ t.state = .halt)
    ∨ (CoreSteps s ∧ (∃ d a disp, fetched s = .halt d a disp) ∧ t.state = .halt)

/-- Halt is terminal: nothing but Reset changes anything (70_reset_and_hazards.md R297; D19, and D26
for the moves refused). -/
def Obligations.HaltIsTerminal : Prop :=
  ∀ s : State, s.state = .halt → nextTurn s ≠ .host .reset → step s = .next (takeTurn s)

/-- A Load that is allowed and fits (70_reset_and_hazards.md R292, 20_memory.md R152; D34): cell `k`
gets bytes `2k` and `2k + 1`, high byte first; cells beyond the image, and every register, keep what
they held; `state` becomes Ready. The premise on memory is the invariant of `StepKeepsLegal`. -/
def Obligations.LoadPlacesTheImage : Prop :=
  ∀ (image : List Byte) (s : State), s.mem.wf = true →
    (s.state = .initialising ∨ s.state = .ready) → image.length / 2 ≤ 65536 →
    (hostMove (.load image) s).2 = .loaded
    ∧ (hostMove (.load image) s).1
        = { s with mem := (hostMove (.load image) s).1.mem, state := .ready }
    ∧ (∀ addr : Word, uint addr < image.length / 2 →
        readWord (hostMove (.load image) s).1.mem addr
          = truncNat (256 * (image.getD (2 * uint addr) 0).toNat
              + (image.getD (2 * uint addr + 1) 0).toNat))
    ∧ (∀ addr : Word, image.length / 2 ≤ uint addr →
        readWord (hostMove (.load image) s).1.mem addr = readWord s.mem addr)

/-- An image of more than 65536 words is refused whole, and a Load while Executing or in Halt has no
effect (70_reset_and_hazards.md R292, R299; C10, C14, D26, D34). -/
def Obligations.LoadRefusals : Prop :=
  ∀ (image : List Byte) (s : State),
    (65536 < image.length / 2 → (s.state = .initialising ∨ s.state = .ready) →
      hostMove (.load image) s = (s, .sizeExceeded))
    ∧ ((s.state = .executing ∨ s.state = .halt) → (hostMove (.load image) s).1 = s)

/-- The launch configuration (70_reset_and_hazards.md R293; D25): each register given is replaced
whole, nothing else changes, and outside Initialising and Ready nothing at all. -/
def Obligations.ConfigureWritesTheLaunchRegisters : Prop :=
  ∀ (v m : Option Word) (e : Option Bool) (s : State),
    ((s.state = .initialising ∨ s.state = .ready) →
      (hostMove (.configure v m e) s).1
        = { s with vect := v.getD s.vect, mask := m.getD s.mask, ie := e.getD s.ie })
    ∧ ((s.state = .executing ∨ s.state = .halt) → (hostMove (.configure v m e) s).1 = s)

/-- Run takes Ready to Executing, changes nothing else, and in any other state has no effect; the first
fetch after it is at the `pc` it found, where a Pause left it or, for the first run of a loaded image
after reset, 0x0000 (70_reset_and_hazards.md R294, with R295 for Pause, R292 for the Load and R290 for
reset; the spec's decisions D26, D34 and D24, log entries 2 and 10). -/
def Obligations.RunStartsFromReadyOnly : Prop :=
  (∀ s : State,
    (s.state = .ready → (hostMove .run s).1 = { s with state := .executing }
      ∧ (fetchFirst (hostMove .run s).1).1 = readWord s.mem s.pc)
    ∧ (s.state ≠ .ready → (hostMove .run s).1 = s))
  ∧ (∀ s : State, s.state = .executing → (hostMove .run (hostMove .pause s).1).1 = s)
  ∧ (∀ image : List Byte, image.length / 2 ≤ 65536 →
      (hostMove .run (hostMove (.load image) State.reset).1).1.state = .executing
      ∧ (hostMove .run (hostMove (.load image) State.reset).1).1.pc = 0)

/-- Pause, Cancel, RaiseIrq, Read and Reset (70_reset_and_hazards.md R290, R295, R299,
60_exceptions.md R256, R273; D23, D24, D26; that Reset keeps the turns to come is the model's choice,
log entry 11, and that Read's view is the model's state, log entry 8). -/
def Obligations.OtherHostMoves : Prop :=
  ∀ (set : Word) (s : State),
    (s.state = .executing → (hostMove .pause s).1 = { s with state := .ready }
      ∧ (hostMove .cancel s).1 = { s with state := .halt })
    ∧ (s.state ≠ .executing → (hostMove .pause s).1 = s ∧ (hostMove .cancel s).1 = s)
    ∧ (s.state ≠ .halt → (hostMove (.raiseIrq set) s).1 = { s with req := s.req ||| set })
    ∧ (s.state = .halt → (hostMove (.raiseIrq set) s).1 = s)
    ∧ hostMove .read s = (s, .view s)
    ∧ (hostMove .reset s).1 = { State.reset with schedule := s.schedule }
end

