-- ==== Sys2Proof/Laws/Encoding.lean ====
section
/-!
SUPPORT. The fields of a first word as numbers, the length test, and the fields of a packed word.
-/

namespace Sys2Proof

theorem opField_val (w : Word) : (opField w).val = uint w / 4096 := by
  have := w.isLt
  simp only [opField, BitVec.val_toFin, BitVec.extractLsb'_toNat, Nat.shiftRight_eq_div_pow, uint]
  omega

theorem dField_val (w : Word) : (dField w).val = uint w / 256 % 16 := by
  simp only [dField, BitVec.val_toFin, BitVec.extractLsb'_toNat, Nat.shiftRight_eq_div_pow, uint]

theorem aField_val (w : Word) : (aField w).val = uint w / 16 % 16 := by
  simp only [aField, BitVec.val_toFin, BitVec.extractLsb'_toNat, Nat.shiftRight_eq_div_pow, uint]

theorem bField_val (w : Word) : (bField w).val = uint w % 16 := by
  simp only [bField, BitVec.val_toFin, BitVec.extractLsb'_toNat, Nat.shiftRight_eq_div_pow, uint,
    Nat.pow_zero, Nat.div_one]

/-- The length test as a number (R170). -/
theorem isTwoWord_iff (w : Word) : isTwoWord w = true ↔ 0xE000 ≤ uint w := by
  rw [isTwoWord, decide_eq_true_iff, opField_val]
  omega

/-- A packed word as a number (R171). -/
theorem uint_packWord (op d a b : Nat) (ho : op < 16) (hd : d < 16) (ha : a < 16) (hb : b < 16) :
    uint (packWord op d a b) = 4096 * op + 256 * d + 16 * a + b := by
  simp only [uint, packWord, BitVec.toNat_append, BitVec.toNat_ofNat]
  rw [← Nat.shiftLeft_add_eq_or_of_lt (by omega), ← Nat.shiftLeft_add_eq_or_of_lt (by omega),
    ← Nat.shiftLeft_add_eq_or_of_lt (by omega)]
  simp only [Nat.shiftLeft_eq]
  omega

end Sys2Proof
end

