-- ==== Sys2Proof/Laws/CodeWord.lean ====
section
/-!
SUPPORT. First words put together by arithmetic (`codeWord`): their value, their fields, their length,
and that the encoder's words are such words.
-/

namespace Sys2Proof.Machine

/-- The value of a first word (R171). -/
theorem uint_codeWord (op : Nat) (d a : Index) (b : Nat) (ho : op < 16) (hb : b < 16) :
    uint (codeWord op d a b) = 4096 * op + 256 * d.val + 16 * a.val + b := by
  have := d.isLt
  have := a.isLt
  simp only [codeWord, truncNat, uint, BitVec.toNat_ofNat]
  omega

/-- The four fields of a first word (R171). -/
theorem fields_codeWord (op : Nat) (d a : Index) (b : Nat) (ho : op < 16) (hb : b < 16) :
    (opField (codeWord op d a b)).val = op ∧ dField (codeWord op d a b) = d
      ∧ aField (codeWord op d a b) = a ∧ (bField (codeWord op d a b)).val = b := by
  have hu := uint_codeWord op d a b ho hb
  have := d.isLt
  have := a.isLt
  rw [opField_val, bField_val, Fin.ext_iff, Fin.ext_iff, dField_val, aField_val, hu]
  omega

/-- The `b` field of a first word as an index. -/
theorem bField_codeWord (op : Nat) (d a b : Index) (ho : op < 16) :
    bField (codeWord op d a b) = b :=
  Fin.ext (fields_codeWord op d a b ho b.isLt).2.2.2

/-- The encoder's word is the word of the same fields. -/
theorem packWord_eq_codeWord (op : Nat) (d a : Index) (b : Nat) (ho : op < 16) (hb : b < 16) :
    packWord op d a b = codeWord op d a b :=
  BitVec.eq_of_toNat_eq
    ((uint_packWord op d a b ho d.isLt a.isLt hb).trans (uint_codeWord op d a b ho hb).symm)

/-- The length of the instruction a word begins (R170). -/
theorem isTwoWord_codeWord (op : Nat) (d a : Index) (b : Nat) (ho : op < 16) (hb : b < 16) :
    isTwoWord (codeWord op d a b) = decide (14 ≤ op) := by
  rw [isTwoWord, (fields_codeWord op d a b ho hb).1]

/-- Every word is the word of its own fields. -/
theorem packWord_fields (w : Word) :
    packWord (opField w) (dField w) (aField w) (bField w) = w := by
  apply BitVec.eq_of_toNat_eq
  have h := uint_packWord (opField w) (dField w) (aField w) (bField w) (opField w).isLt
    (dField w).isLt (aField w).isLt (bField w).isLt
  rw [uint] at h
  rw [h, opField_val, dField_val, aField_val, bField_val]
  have := w.isLt
  simp only [uint]
  omega

end Sys2Proof.Machine
end

