-- ==== Sys2Proof/Laws/State.lean ====
section
/-!
SUPPORT. What each named update of State (Sys2Proof/Machine/State.lean) leaves in each field: one
lemma per field per update, so that no proof unfolds a record update.
-/

namespace Sys2Proof.Machine

@[simp] theorem State.setRegs_regs (s : State) (v : Vector Word 16) : (s.setRegs v).regs = v := rfl
@[simp] theorem State.setRegs_pc (s : State) (v : Vector Word 16) : (s.setRegs v).pc = s.pc := rfl
@[simp] theorem State.setRegs_ir (s : State) (v : Vector Word 16) : (s.setRegs v).ir = s.ir := rfl
@[simp] theorem State.setRegs_adr (s : State) (v : Vector Word 16) : (s.setRegs v).adr = s.adr := rfl
@[simp] theorem State.setRegs_dat (s : State) (v : Vector Word 16) : (s.setRegs v).dat = s.dat := rfl
@[simp] theorem State.setRegs_mask (s : State) (v : Vector Word 16) : (s.setRegs v).mask = s.mask := rfl
@[simp] theorem State.setRegs_req (s : State) (v : Vector Word 16) : (s.setRegs v).req = s.req := rfl
@[simp] theorem State.setRegs_rstat (s : State) (v : Vector Word 16) : (s.setRegs v).rstat = s.rstat := rfl
@[simp] theorem State.setRegs_rpc (s : State) (v : Vector Word 16) : (s.setRegs v).rpc = s.rpc := rfl
@[simp] theorem State.setRegs_vect (s : State) (v : Vector Word 16) : (s.setRegs v).vect = s.vect := rfl
@[simp] theorem State.setRegs_sys (s : State) (v : Vector Word 16) : (s.setRegs v).sys = s.sys := rfl
@[simp] theorem State.setRegs_ie (s : State) (v : Vector Word 16) : (s.setRegs v).ie = s.ie := rfl
@[simp] theorem State.setRegs_mem (s : State) (v : Vector Word 16) : (s.setRegs v).mem = s.mem := rfl
@[simp] theorem State.setRegs_state (s : State) (v : Vector Word 16) : (s.setRegs v).state = s.state := rfl
@[simp] theorem State.setRegs_schedule (s : State) (v : Vector Word 16) : (s.setRegs v).schedule = s.schedule := rfl

@[simp] theorem State.setPc_regs (s : State) (v : Word) : (s.setPc v).regs = s.regs := rfl
@[simp] theorem State.setPc_pc (s : State) (v : Word) : (s.setPc v).pc = v := rfl
@[simp] theorem State.setPc_ir (s : State) (v : Word) : (s.setPc v).ir = s.ir := rfl
@[simp] theorem State.setPc_adr (s : State) (v : Word) : (s.setPc v).adr = s.adr := rfl
@[simp] theorem State.setPc_dat (s : State) (v : Word) : (s.setPc v).dat = s.dat := rfl
@[simp] theorem State.setPc_mask (s : State) (v : Word) : (s.setPc v).mask = s.mask := rfl
@[simp] theorem State.setPc_req (s : State) (v : Word) : (s.setPc v).req = s.req := rfl
@[simp] theorem State.setPc_rstat (s : State) (v : Word) : (s.setPc v).rstat = s.rstat := rfl
@[simp] theorem State.setPc_rpc (s : State) (v : Word) : (s.setPc v).rpc = s.rpc := rfl
@[simp] theorem State.setPc_vect (s : State) (v : Word) : (s.setPc v).vect = s.vect := rfl
@[simp] theorem State.setPc_sys (s : State) (v : Word) : (s.setPc v).sys = s.sys := rfl
@[simp] theorem State.setPc_ie (s : State) (v : Word) : (s.setPc v).ie = s.ie := rfl
@[simp] theorem State.setPc_mem (s : State) (v : Word) : (s.setPc v).mem = s.mem := rfl
@[simp] theorem State.setPc_state (s : State) (v : Word) : (s.setPc v).state = s.state := rfl
@[simp] theorem State.setPc_schedule (s : State) (v : Word) : (s.setPc v).schedule = s.schedule := rfl

@[simp] theorem State.setIr_regs (s : State) (v : Word) : (s.setIr v).regs = s.regs := rfl
@[simp] theorem State.setIr_pc (s : State) (v : Word) : (s.setIr v).pc = s.pc := rfl
@[simp] theorem State.setIr_ir (s : State) (v : Word) : (s.setIr v).ir = v := rfl
@[simp] theorem State.setIr_adr (s : State) (v : Word) : (s.setIr v).adr = s.adr := rfl
@[simp] theorem State.setIr_dat (s : State) (v : Word) : (s.setIr v).dat = s.dat := rfl
@[simp] theorem State.setIr_mask (s : State) (v : Word) : (s.setIr v).mask = s.mask := rfl
@[simp] theorem State.setIr_req (s : State) (v : Word) : (s.setIr v).req = s.req := rfl
@[simp] theorem State.setIr_rstat (s : State) (v : Word) : (s.setIr v).rstat = s.rstat := rfl
@[simp] theorem State.setIr_rpc (s : State) (v : Word) : (s.setIr v).rpc = s.rpc := rfl
@[simp] theorem State.setIr_vect (s : State) (v : Word) : (s.setIr v).vect = s.vect := rfl
@[simp] theorem State.setIr_sys (s : State) (v : Word) : (s.setIr v).sys = s.sys := rfl
@[simp] theorem State.setIr_ie (s : State) (v : Word) : (s.setIr v).ie = s.ie := rfl
@[simp] theorem State.setIr_mem (s : State) (v : Word) : (s.setIr v).mem = s.mem := rfl
@[simp] theorem State.setIr_state (s : State) (v : Word) : (s.setIr v).state = s.state := rfl
@[simp] theorem State.setIr_schedule (s : State) (v : Word) : (s.setIr v).schedule = s.schedule := rfl

@[simp] theorem State.setAdr_regs (s : State) (v : Word) : (s.setAdr v).regs = s.regs := rfl
@[simp] theorem State.setAdr_pc (s : State) (v : Word) : (s.setAdr v).pc = s.pc := rfl
@[simp] theorem State.setAdr_ir (s : State) (v : Word) : (s.setAdr v).ir = s.ir := rfl
@[simp] theorem State.setAdr_adr (s : State) (v : Word) : (s.setAdr v).adr = v := rfl
@[simp] theorem State.setAdr_dat (s : State) (v : Word) : (s.setAdr v).dat = s.dat := rfl
@[simp] theorem State.setAdr_mask (s : State) (v : Word) : (s.setAdr v).mask = s.mask := rfl
@[simp] theorem State.setAdr_req (s : State) (v : Word) : (s.setAdr v).req = s.req := rfl
@[simp] theorem State.setAdr_rstat (s : State) (v : Word) : (s.setAdr v).rstat = s.rstat := rfl
@[simp] theorem State.setAdr_rpc (s : State) (v : Word) : (s.setAdr v).rpc = s.rpc := rfl
@[simp] theorem State.setAdr_vect (s : State) (v : Word) : (s.setAdr v).vect = s.vect := rfl
@[simp] theorem State.setAdr_sys (s : State) (v : Word) : (s.setAdr v).sys = s.sys := rfl
@[simp] theorem State.setAdr_ie (s : State) (v : Word) : (s.setAdr v).ie = s.ie := rfl
@[simp] theorem State.setAdr_mem (s : State) (v : Word) : (s.setAdr v).mem = s.mem := rfl
@[simp] theorem State.setAdr_state (s : State) (v : Word) : (s.setAdr v).state = s.state := rfl
@[simp] theorem State.setAdr_schedule (s : State) (v : Word) : (s.setAdr v).schedule = s.schedule := rfl

@[simp] theorem State.setDat_regs (s : State) (v : Word) : (s.setDat v).regs = s.regs := rfl
@[simp] theorem State.setDat_pc (s : State) (v : Word) : (s.setDat v).pc = s.pc := rfl
@[simp] theorem State.setDat_ir (s : State) (v : Word) : (s.setDat v).ir = s.ir := rfl
@[simp] theorem State.setDat_adr (s : State) (v : Word) : (s.setDat v).adr = s.adr := rfl
@[simp] theorem State.setDat_dat (s : State) (v : Word) : (s.setDat v).dat = v := rfl
@[simp] theorem State.setDat_mask (s : State) (v : Word) : (s.setDat v).mask = s.mask := rfl
@[simp] theorem State.setDat_req (s : State) (v : Word) : (s.setDat v).req = s.req := rfl
@[simp] theorem State.setDat_rstat (s : State) (v : Word) : (s.setDat v).rstat = s.rstat := rfl
@[simp] theorem State.setDat_rpc (s : State) (v : Word) : (s.setDat v).rpc = s.rpc := rfl
@[simp] theorem State.setDat_vect (s : State) (v : Word) : (s.setDat v).vect = s.vect := rfl
@[simp] theorem State.setDat_sys (s : State) (v : Word) : (s.setDat v).sys = s.sys := rfl
@[simp] theorem State.setDat_ie (s : State) (v : Word) : (s.setDat v).ie = s.ie := rfl
@[simp] theorem State.setDat_mem (s : State) (v : Word) : (s.setDat v).mem = s.mem := rfl
@[simp] theorem State.setDat_state (s : State) (v : Word) : (s.setDat v).state = s.state := rfl
@[simp] theorem State.setDat_schedule (s : State) (v : Word) : (s.setDat v).schedule = s.schedule := rfl

@[simp] theorem State.setMask_regs (s : State) (v : Word) : (s.setMask v).regs = s.regs := rfl
@[simp] theorem State.setMask_pc (s : State) (v : Word) : (s.setMask v).pc = s.pc := rfl
@[simp] theorem State.setMask_ir (s : State) (v : Word) : (s.setMask v).ir = s.ir := rfl
@[simp] theorem State.setMask_adr (s : State) (v : Word) : (s.setMask v).adr = s.adr := rfl
@[simp] theorem State.setMask_dat (s : State) (v : Word) : (s.setMask v).dat = s.dat := rfl
@[simp] theorem State.setMask_mask (s : State) (v : Word) : (s.setMask v).mask = v := rfl
@[simp] theorem State.setMask_req (s : State) (v : Word) : (s.setMask v).req = s.req := rfl
@[simp] theorem State.setMask_rstat (s : State) (v : Word) : (s.setMask v).rstat = s.rstat := rfl
@[simp] theorem State.setMask_rpc (s : State) (v : Word) : (s.setMask v).rpc = s.rpc := rfl
@[simp] theorem State.setMask_vect (s : State) (v : Word) : (s.setMask v).vect = s.vect := rfl
@[simp] theorem State.setMask_sys (s : State) (v : Word) : (s.setMask v).sys = s.sys := rfl
@[simp] theorem State.setMask_ie (s : State) (v : Word) : (s.setMask v).ie = s.ie := rfl
@[simp] theorem State.setMask_mem (s : State) (v : Word) : (s.setMask v).mem = s.mem := rfl
@[simp] theorem State.setMask_state (s : State) (v : Word) : (s.setMask v).state = s.state := rfl
@[simp] theorem State.setMask_schedule (s : State) (v : Word) : (s.setMask v).schedule = s.schedule := rfl

@[simp] theorem State.setReq_regs (s : State) (v : Word) : (s.setReq v).regs = s.regs := rfl
@[simp] theorem State.setReq_pc (s : State) (v : Word) : (s.setReq v).pc = s.pc := rfl
@[simp] theorem State.setReq_ir (s : State) (v : Word) : (s.setReq v).ir = s.ir := rfl
@[simp] theorem State.setReq_adr (s : State) (v : Word) : (s.setReq v).adr = s.adr := rfl
@[simp] theorem State.setReq_dat (s : State) (v : Word) : (s.setReq v).dat = s.dat := rfl
@[simp] theorem State.setReq_mask (s : State) (v : Word) : (s.setReq v).mask = s.mask := rfl
@[simp] theorem State.setReq_req (s : State) (v : Word) : (s.setReq v).req = v := rfl
@[simp] theorem State.setReq_rstat (s : State) (v : Word) : (s.setReq v).rstat = s.rstat := rfl
@[simp] theorem State.setReq_rpc (s : State) (v : Word) : (s.setReq v).rpc = s.rpc := rfl
@[simp] theorem State.setReq_vect (s : State) (v : Word) : (s.setReq v).vect = s.vect := rfl
@[simp] theorem State.setReq_sys (s : State) (v : Word) : (s.setReq v).sys = s.sys := rfl
@[simp] theorem State.setReq_ie (s : State) (v : Word) : (s.setReq v).ie = s.ie := rfl
@[simp] theorem State.setReq_mem (s : State) (v : Word) : (s.setReq v).mem = s.mem := rfl
@[simp] theorem State.setReq_state (s : State) (v : Word) : (s.setReq v).state = s.state := rfl
@[simp] theorem State.setReq_schedule (s : State) (v : Word) : (s.setReq v).schedule = s.schedule := rfl

@[simp] theorem State.setRstat_regs (s : State) (v : Word) : (s.setRstat v).regs = s.regs := rfl
@[simp] theorem State.setRstat_pc (s : State) (v : Word) : (s.setRstat v).pc = s.pc := rfl
@[simp] theorem State.setRstat_ir (s : State) (v : Word) : (s.setRstat v).ir = s.ir := rfl
@[simp] theorem State.setRstat_adr (s : State) (v : Word) : (s.setRstat v).adr = s.adr := rfl
@[simp] theorem State.setRstat_dat (s : State) (v : Word) : (s.setRstat v).dat = s.dat := rfl
@[simp] theorem State.setRstat_mask (s : State) (v : Word) : (s.setRstat v).mask = s.mask := rfl
@[simp] theorem State.setRstat_req (s : State) (v : Word) : (s.setRstat v).req = s.req := rfl
@[simp] theorem State.setRstat_rstat (s : State) (v : Word) : (s.setRstat v).rstat = v := rfl
@[simp] theorem State.setRstat_rpc (s : State) (v : Word) : (s.setRstat v).rpc = s.rpc := rfl
@[simp] theorem State.setRstat_vect (s : State) (v : Word) : (s.setRstat v).vect = s.vect := rfl
@[simp] theorem State.setRstat_sys (s : State) (v : Word) : (s.setRstat v).sys = s.sys := rfl
@[simp] theorem State.setRstat_ie (s : State) (v : Word) : (s.setRstat v).ie = s.ie := rfl
@[simp] theorem State.setRstat_mem (s : State) (v : Word) : (s.setRstat v).mem = s.mem := rfl
@[simp] theorem State.setRstat_state (s : State) (v : Word) : (s.setRstat v).state = s.state := rfl
@[simp] theorem State.setRstat_schedule (s : State) (v : Word) : (s.setRstat v).schedule = s.schedule := rfl

@[simp] theorem State.setRpc_regs (s : State) (v : Word) : (s.setRpc v).regs = s.regs := rfl
@[simp] theorem State.setRpc_pc (s : State) (v : Word) : (s.setRpc v).pc = s.pc := rfl
@[simp] theorem State.setRpc_ir (s : State) (v : Word) : (s.setRpc v).ir = s.ir := rfl
@[simp] theorem State.setRpc_adr (s : State) (v : Word) : (s.setRpc v).adr = s.adr := rfl
@[simp] theorem State.setRpc_dat (s : State) (v : Word) : (s.setRpc v).dat = s.dat := rfl
@[simp] theorem State.setRpc_mask (s : State) (v : Word) : (s.setRpc v).mask = s.mask := rfl
@[simp] theorem State.setRpc_req (s : State) (v : Word) : (s.setRpc v).req = s.req := rfl
@[simp] theorem State.setRpc_rstat (s : State) (v : Word) : (s.setRpc v).rstat = s.rstat := rfl
@[simp] theorem State.setRpc_rpc (s : State) (v : Word) : (s.setRpc v).rpc = v := rfl
@[simp] theorem State.setRpc_vect (s : State) (v : Word) : (s.setRpc v).vect = s.vect := rfl
@[simp] theorem State.setRpc_sys (s : State) (v : Word) : (s.setRpc v).sys = s.sys := rfl
@[simp] theorem State.setRpc_ie (s : State) (v : Word) : (s.setRpc v).ie = s.ie := rfl
@[simp] theorem State.setRpc_mem (s : State) (v : Word) : (s.setRpc v).mem = s.mem := rfl
@[simp] theorem State.setRpc_state (s : State) (v : Word) : (s.setRpc v).state = s.state := rfl
@[simp] theorem State.setRpc_schedule (s : State) (v : Word) : (s.setRpc v).schedule = s.schedule := rfl

@[simp] theorem State.setVect_regs (s : State) (v : Word) : (s.setVect v).regs = s.regs := rfl
@[simp] theorem State.setVect_pc (s : State) (v : Word) : (s.setVect v).pc = s.pc := rfl
@[simp] theorem State.setVect_ir (s : State) (v : Word) : (s.setVect v).ir = s.ir := rfl
@[simp] theorem State.setVect_adr (s : State) (v : Word) : (s.setVect v).adr = s.adr := rfl
@[simp] theorem State.setVect_dat (s : State) (v : Word) : (s.setVect v).dat = s.dat := rfl
@[simp] theorem State.setVect_mask (s : State) (v : Word) : (s.setVect v).mask = s.mask := rfl
@[simp] theorem State.setVect_req (s : State) (v : Word) : (s.setVect v).req = s.req := rfl
@[simp] theorem State.setVect_rstat (s : State) (v : Word) : (s.setVect v).rstat = s.rstat := rfl
@[simp] theorem State.setVect_rpc (s : State) (v : Word) : (s.setVect v).rpc = s.rpc := rfl
@[simp] theorem State.setVect_vect (s : State) (v : Word) : (s.setVect v).vect = v := rfl
@[simp] theorem State.setVect_sys (s : State) (v : Word) : (s.setVect v).sys = s.sys := rfl
@[simp] theorem State.setVect_ie (s : State) (v : Word) : (s.setVect v).ie = s.ie := rfl
@[simp] theorem State.setVect_mem (s : State) (v : Word) : (s.setVect v).mem = s.mem := rfl
@[simp] theorem State.setVect_state (s : State) (v : Word) : (s.setVect v).state = s.state := rfl
@[simp] theorem State.setVect_schedule (s : State) (v : Word) : (s.setVect v).schedule = s.schedule := rfl

@[simp] theorem State.setSys_regs (s : State) (v : Bool) : (s.setSys v).regs = s.regs := rfl
@[simp] theorem State.setSys_pc (s : State) (v : Bool) : (s.setSys v).pc = s.pc := rfl
@[simp] theorem State.setSys_ir (s : State) (v : Bool) : (s.setSys v).ir = s.ir := rfl
@[simp] theorem State.setSys_adr (s : State) (v : Bool) : (s.setSys v).adr = s.adr := rfl
@[simp] theorem State.setSys_dat (s : State) (v : Bool) : (s.setSys v).dat = s.dat := rfl
@[simp] theorem State.setSys_mask (s : State) (v : Bool) : (s.setSys v).mask = s.mask := rfl
@[simp] theorem State.setSys_req (s : State) (v : Bool) : (s.setSys v).req = s.req := rfl
@[simp] theorem State.setSys_rstat (s : State) (v : Bool) : (s.setSys v).rstat = s.rstat := rfl
@[simp] theorem State.setSys_rpc (s : State) (v : Bool) : (s.setSys v).rpc = s.rpc := rfl
@[simp] theorem State.setSys_vect (s : State) (v : Bool) : (s.setSys v).vect = s.vect := rfl
@[simp] theorem State.setSys_sys (s : State) (v : Bool) : (s.setSys v).sys = v := rfl
@[simp] theorem State.setSys_ie (s : State) (v : Bool) : (s.setSys v).ie = s.ie := rfl
@[simp] theorem State.setSys_mem (s : State) (v : Bool) : (s.setSys v).mem = s.mem := rfl
@[simp] theorem State.setSys_state (s : State) (v : Bool) : (s.setSys v).state = s.state := rfl
@[simp] theorem State.setSys_schedule (s : State) (v : Bool) : (s.setSys v).schedule = s.schedule := rfl

@[simp] theorem State.setIe_regs (s : State) (v : Bool) : (s.setIe v).regs = s.regs := rfl
@[simp] theorem State.setIe_pc (s : State) (v : Bool) : (s.setIe v).pc = s.pc := rfl
@[simp] theorem State.setIe_ir (s : State) (v : Bool) : (s.setIe v).ir = s.ir := rfl
@[simp] theorem State.setIe_adr (s : State) (v : Bool) : (s.setIe v).adr = s.adr := rfl
@[simp] theorem State.setIe_dat (s : State) (v : Bool) : (s.setIe v).dat = s.dat := rfl
@[simp] theorem State.setIe_mask (s : State) (v : Bool) : (s.setIe v).mask = s.mask := rfl
@[simp] theorem State.setIe_req (s : State) (v : Bool) : (s.setIe v).req = s.req := rfl
@[simp] theorem State.setIe_rstat (s : State) (v : Bool) : (s.setIe v).rstat = s.rstat := rfl
@[simp] theorem State.setIe_rpc (s : State) (v : Bool) : (s.setIe v).rpc = s.rpc := rfl
@[simp] theorem State.setIe_vect (s : State) (v : Bool) : (s.setIe v).vect = s.vect := rfl
@[simp] theorem State.setIe_sys (s : State) (v : Bool) : (s.setIe v).sys = s.sys := rfl
@[simp] theorem State.setIe_ie (s : State) (v : Bool) : (s.setIe v).ie = v := rfl
@[simp] theorem State.setIe_mem (s : State) (v : Bool) : (s.setIe v).mem = s.mem := rfl
@[simp] theorem State.setIe_state (s : State) (v : Bool) : (s.setIe v).state = s.state := rfl
@[simp] theorem State.setIe_schedule (s : State) (v : Bool) : (s.setIe v).schedule = s.schedule := rfl

@[simp] theorem State.setMem_regs (s : State) (v : Memory) : (s.setMem v).regs = s.regs := rfl
@[simp] theorem State.setMem_pc (s : State) (v : Memory) : (s.setMem v).pc = s.pc := rfl
@[simp] theorem State.setMem_ir (s : State) (v : Memory) : (s.setMem v).ir = s.ir := rfl
@[simp] theorem State.setMem_adr (s : State) (v : Memory) : (s.setMem v).adr = s.adr := rfl
@[simp] theorem State.setMem_dat (s : State) (v : Memory) : (s.setMem v).dat = s.dat := rfl
@[simp] theorem State.setMem_mask (s : State) (v : Memory) : (s.setMem v).mask = s.mask := rfl
@[simp] theorem State.setMem_req (s : State) (v : Memory) : (s.setMem v).req = s.req := rfl
@[simp] theorem State.setMem_rstat (s : State) (v : Memory) : (s.setMem v).rstat = s.rstat := rfl
@[simp] theorem State.setMem_rpc (s : State) (v : Memory) : (s.setMem v).rpc = s.rpc := rfl
@[simp] theorem State.setMem_vect (s : State) (v : Memory) : (s.setMem v).vect = s.vect := rfl
@[simp] theorem State.setMem_sys (s : State) (v : Memory) : (s.setMem v).sys = s.sys := rfl
@[simp] theorem State.setMem_ie (s : State) (v : Memory) : (s.setMem v).ie = s.ie := rfl
@[simp] theorem State.setMem_mem (s : State) (v : Memory) : (s.setMem v).mem = v := rfl
@[simp] theorem State.setMem_state (s : State) (v : Memory) : (s.setMem v).state = s.state := rfl
@[simp] theorem State.setMem_schedule (s : State) (v : Memory) : (s.setMem v).schedule = s.schedule := rfl

@[simp] theorem State.setState_regs (s : State) (v : ProcState) : (s.setState v).regs = s.regs := rfl
@[simp] theorem State.setState_pc (s : State) (v : ProcState) : (s.setState v).pc = s.pc := rfl
@[simp] theorem State.setState_ir (s : State) (v : ProcState) : (s.setState v).ir = s.ir := rfl
@[simp] theorem State.setState_adr (s : State) (v : ProcState) : (s.setState v).adr = s.adr := rfl
@[simp] theorem State.setState_dat (s : State) (v : ProcState) : (s.setState v).dat = s.dat := rfl
@[simp] theorem State.setState_mask (s : State) (v : ProcState) : (s.setState v).mask = s.mask := rfl
@[simp] theorem State.setState_req (s : State) (v : ProcState) : (s.setState v).req = s.req := rfl
@[simp] theorem State.setState_rstat (s : State) (v : ProcState) : (s.setState v).rstat = s.rstat := rfl
@[simp] theorem State.setState_rpc (s : State) (v : ProcState) : (s.setState v).rpc = s.rpc := rfl
@[simp] theorem State.setState_vect (s : State) (v : ProcState) : (s.setState v).vect = s.vect := rfl
@[simp] theorem State.setState_sys (s : State) (v : ProcState) : (s.setState v).sys = s.sys := rfl
@[simp] theorem State.setState_ie (s : State) (v : ProcState) : (s.setState v).ie = s.ie := rfl
@[simp] theorem State.setState_mem (s : State) (v : ProcState) : (s.setState v).mem = s.mem := rfl
@[simp] theorem State.setState_state (s : State) (v : ProcState) : (s.setState v).state = v := rfl
@[simp] theorem State.setState_schedule (s : State) (v : ProcState) : (s.setState v).schedule = s.schedule := rfl

@[simp] theorem State.setSchedule_regs (s : State) (v : List Turn) : (s.setSchedule v).regs = s.regs := rfl
@[simp] theorem State.setSchedule_pc (s : State) (v : List Turn) : (s.setSchedule v).pc = s.pc := rfl
@[simp] theorem State.setSchedule_ir (s : State) (v : List Turn) : (s.setSchedule v).ir = s.ir := rfl
@[simp] theorem State.setSchedule_adr (s : State) (v : List Turn) : (s.setSchedule v).adr = s.adr := rfl
@[simp] theorem State.setSchedule_dat (s : State) (v : List Turn) : (s.setSchedule v).dat = s.dat := rfl
@[simp] theorem State.setSchedule_mask (s : State) (v : List Turn) : (s.setSchedule v).mask = s.mask := rfl
@[simp] theorem State.setSchedule_req (s : State) (v : List Turn) : (s.setSchedule v).req = s.req := rfl
@[simp] theorem State.setSchedule_rstat (s : State) (v : List Turn) : (s.setSchedule v).rstat = s.rstat := rfl
@[simp] theorem State.setSchedule_rpc (s : State) (v : List Turn) : (s.setSchedule v).rpc = s.rpc := rfl
@[simp] theorem State.setSchedule_vect (s : State) (v : List Turn) : (s.setSchedule v).vect = s.vect := rfl
@[simp] theorem State.setSchedule_sys (s : State) (v : List Turn) : (s.setSchedule v).sys = s.sys := rfl
@[simp] theorem State.setSchedule_ie (s : State) (v : List Turn) : (s.setSchedule v).ie = s.ie := rfl
@[simp] theorem State.setSchedule_mem (s : State) (v : List Turn) : (s.setSchedule v).mem = s.mem := rfl
@[simp] theorem State.setSchedule_state (s : State) (v : List Turn) : (s.setSchedule v).state = s.state := rfl
@[simp] theorem State.setSchedule_schedule (s : State) (v : List Turn) : (s.setSchedule v).schedule = v := rfl

/-! The state after reset, field by field (R135). -/

@[simp] theorem State.reset_regs : State.reset.regs = Vector.replicate 16 0 := rfl
@[simp] theorem State.reset_pc : State.reset.pc = 0 := rfl
@[simp] theorem State.reset_ir : State.reset.ir = 0 := rfl
@[simp] theorem State.reset_adr : State.reset.adr = 0 := rfl
@[simp] theorem State.reset_dat : State.reset.dat = 0 := rfl
@[simp] theorem State.reset_mask : State.reset.mask = 0 := rfl
@[simp] theorem State.reset_req : State.reset.req = 0 := rfl
@[simp] theorem State.reset_rstat : State.reset.rstat = 0 := rfl
@[simp] theorem State.reset_rpc : State.reset.rpc = 0 := rfl
@[simp] theorem State.reset_vect : State.reset.vect = 0 := rfl
@[simp] theorem State.reset_sys : State.reset.sys = false := rfl
@[simp] theorem State.reset_ie : State.reset.ie = false := rfl
@[simp] theorem State.reset_mem : State.reset.mem = [] := rfl
@[simp] theorem State.reset_state : State.reset.state = .initialising := rfl
@[simp] theorem State.reset_schedule : State.reset.schedule = [] := rfl

end Sys2Proof.Machine
end

