-- ==== Sys2Proof/Laws/Registers.lean ====
section
/-!
SUPPORT. What the register and flag operations do, said once: the register file after a write, a
bit of a Word after `setBit`, and the one lemma each that says what `writeReg` and `writeFlag` leave
in every other field.
-/

namespace Sys2Proof.Machine

/-- A register's value depends on the register file alone. -/
theorem readReg_congr {s t : State} (h : t.regs = s.regs) (r : Index) : readReg t r = readReg s r := by
  simp only [readReg, h]

@[simp] theorem readReg_setRegs (s : State) (v : Vector Word 16) (r : Index) :
    readReg (s.setRegs v) r = v[r] := rfl

/-- An entry of the register file after one entry is replaced. -/
theorem regs_getElem_set (regs : Vector Word 16) (i r : Index) (v : Word) :
    (regs.set i v)[r] = if r = i then v else regs[r] := by
  simp only [Fin.getElem_fin, Vector.getElem_set, Fin.ext_iff, eq_comm]

/-- Everything a destination write does to the registers: discarded for 15 (R114). -/
theorem readReg_writeReg (s : State) (i r : Index) (v : Word) :
    readReg (writeReg s i v) r = if r = i ∧ i ≠ Config.ccReg then v else readReg s r := by
  unfold writeReg
  split
  · next h => simp [h]
  · next h =>
    rw [readReg_setRegs, regs_getElem_set]
    simp only [h, ne_eq, not_false_eq_true, and_true, readReg]

@[simp] theorem readReg_writeReg_cc (s : State) (i : Index) (v : Word) :
    readReg (writeReg s i v) Config.ccReg = readReg s Config.ccReg := by
  rw [readReg_writeReg, if_neg]
  rintro ⟨h, h'⟩
  exact h' h.symm

@[simp] theorem ccBit_writeReg (s : State) (i : Index) (v : Word) (k : Index) :
    ccBit (writeReg s i v) k = ccBit s k := by
  simp [ccBit]

/-- Bit `k` of a Word after bit `i` is made `b`: that bit, and no other. -/
theorem bitOf_setBit (w : Word) (i k : Index) (b : Bool) :
    bitOf (setBit w i b) k = if k = i then b else bitOf w k := by
  by_cases h : k = i
  · subst h
    cases b <;> simp [setBit, bitOf]
  · have h' : ¬ k.val = i.val := fun e => h (Fin.ext e)
    cases b <;> simp [setBit, bitOf, h, h']

/-- Two Words with the same bits are the same Word. -/
theorem word_ext {v w : Word} (h : ∀ k : Index, bitOf v k = bitOf w k) : v = w :=
  BitVec.eq_of_getLsbD_eq fun i hi => h ⟨i, hi⟩

@[simp] theorem bitOf_and (v w : Word) (k : Index) : bitOf (v &&& w) k = (bitOf v k && bitOf w k) :=
  BitVec.getLsbD_and

@[simp] theorem bitOf_or (v w : Word) (k : Index) : bitOf (v ||| w) k = (bitOf v k || bitOf w k) :=
  BitVec.getLsbD_or

/-- A bit of a Word as a number. -/
theorem bitOf_eq_decide (w : Word) (k : Index) : bitOf w k = decide (uint w / 2 ^ k.val % 2 = 1) := by
  rw [bitOf, BitVec.getLsbD, Nat.testBit_eq_decide_div_mod_eq]

/-- Everything a flag write does to the registers (R116): register 15's one bit. -/
theorem readReg_writeFlag (s : State) (f : CCFlag) (b : Bool) (r : Index) :
    readReg (writeFlag s f b) r
      = if r = Config.ccReg then setBit (readReg s r) f.bit b else readReg s r := by
  rw [writeFlag, readReg_setRegs, regs_getElem_set]
  split
  · next h => rw [h]
  · rfl

/-- A bit of `R15` after a flag write. -/
theorem ccBit_writeFlag (s : State) (f : CCFlag) (b : Bool) (k : Index) :
    ccBit (writeFlag s f b) k = if k = f.bit then b else ccBit s k := by
  rw [ccBit, readReg_writeFlag, if_pos rfl, bitOf_setBit, ccBit]

/-- A register other than 15 keeps its Word when a flag is written. -/
theorem readReg_writeFlag_ne (s : State) (f : CCFlag) (b : Bool) {r : Index}
    (h : r ≠ Config.ccReg) : readReg (writeFlag s f b) r = readReg s r := by
  rw [readReg_writeFlag, if_neg h]

/-! Every other field after `writeReg` and `writeFlag` and the groups of flag writes. -/

@[simp] theorem writeReg_pc (s : State) (i : Index) (v : Word) :
    (writeReg s i v).pc = s.pc := by unfold writeReg; split <;> rfl

@[simp] theorem writeReg_ir (s : State) (i : Index) (v : Word) :
    (writeReg s i v).ir = s.ir := by unfold writeReg; split <;> rfl

@[simp] theorem writeReg_adr (s : State) (i : Index) (v : Word) :
    (writeReg s i v).adr = s.adr := by unfold writeReg; split <;> rfl

@[simp] theorem writeReg_dat (s : State) (i : Index) (v : Word) :
    (writeReg s i v).dat = s.dat := by unfold writeReg; split <;> rfl

@[simp] theorem writeReg_mask (s : State) (i : Index) (v : Word) :
    (writeReg s i v).mask = s.mask := by unfold writeReg; split <;> rfl

@[simp] theorem writeReg_req (s : State) (i : Index) (v : Word) :
    (writeReg s i v).req = s.req := by unfold writeReg; split <;> rfl

@[simp] theorem writeReg_rstat (s : State) (i : Index) (v : Word) :
    (writeReg s i v).rstat = s.rstat := by unfold writeReg; split <;> rfl

@[simp] theorem writeReg_rpc (s : State) (i : Index) (v : Word) :
    (writeReg s i v).rpc = s.rpc := by unfold writeReg; split <;> rfl

@[simp] theorem writeReg_vect (s : State) (i : Index) (v : Word) :
    (writeReg s i v).vect = s.vect := by unfold writeReg; split <;> rfl

@[simp] theorem writeReg_sys (s : State) (i : Index) (v : Word) :
    (writeReg s i v).sys = s.sys := by unfold writeReg; split <;> rfl

@[simp] theorem writeReg_ie (s : State) (i : Index) (v : Word) :
    (writeReg s i v).ie = s.ie := by unfold writeReg; split <;> rfl

@[simp] theorem writeReg_mem (s : State) (i : Index) (v : Word) :
    (writeReg s i v).mem = s.mem := by unfold writeReg; split <;> rfl

@[simp] theorem writeReg_state (s : State) (i : Index) (v : Word) :
    (writeReg s i v).state = s.state := by unfold writeReg; split <;> rfl

@[simp] theorem writeReg_schedule (s : State) (i : Index) (v : Word) :
    (writeReg s i v).schedule = s.schedule := by unfold writeReg; split <;> rfl

@[simp] theorem writeFlag_pc (s : State) (f : CCFlag) (b : Bool) :
    (writeFlag s f b).pc = s.pc := rfl

@[simp] theorem writeFlag_ir (s : State) (f : CCFlag) (b : Bool) :
    (writeFlag s f b).ir = s.ir := rfl

@[simp] theorem writeFlag_adr (s : State) (f : CCFlag) (b : Bool) :
    (writeFlag s f b).adr = s.adr := rfl

@[simp] theorem writeFlag_dat (s : State) (f : CCFlag) (b : Bool) :
    (writeFlag s f b).dat = s.dat := rfl

@[simp] theorem writeFlag_mask (s : State) (f : CCFlag) (b : Bool) :
    (writeFlag s f b).mask = s.mask := rfl

@[simp] theorem writeFlag_req (s : State) (f : CCFlag) (b : Bool) :
    (writeFlag s f b).req = s.req := rfl

@[simp] theorem writeFlag_rstat (s : State) (f : CCFlag) (b : Bool) :
    (writeFlag s f b).rstat = s.rstat := rfl

@[simp] theorem writeFlag_rpc (s : State) (f : CCFlag) (b : Bool) :
    (writeFlag s f b).rpc = s.rpc := rfl

@[simp] theorem writeFlag_vect (s : State) (f : CCFlag) (b : Bool) :
    (writeFlag s f b).vect = s.vect := rfl

@[simp] theorem writeFlag_sys (s : State) (f : CCFlag) (b : Bool) :
    (writeFlag s f b).sys = s.sys := rfl

@[simp] theorem writeFlag_ie (s : State) (f : CCFlag) (b : Bool) :
    (writeFlag s f b).ie = s.ie := rfl

@[simp] theorem writeFlag_mem (s : State) (f : CCFlag) (b : Bool) :
    (writeFlag s f b).mem = s.mem := rfl

@[simp] theorem writeFlag_state (s : State) (f : CCFlag) (b : Bool) :
    (writeFlag s f b).state = s.state := rfl

@[simp] theorem writeFlag_schedule (s : State) (f : CCFlag) (b : Bool) :
    (writeFlag s f b).schedule = s.schedule := rfl

@[simp] theorem writeAdderFlags_pc (s : State) (x y z : Bool) :
    (writeAdderFlags s x y z).pc = s.pc := rfl

@[simp] theorem writeAdderFlags_ir (s : State) (x y z : Bool) :
    (writeAdderFlags s x y z).ir = s.ir := rfl

@[simp] theorem writeAdderFlags_adr (s : State) (x y z : Bool) :
    (writeAdderFlags s x y z).adr = s.adr := rfl

@[simp] theorem writeAdderFlags_dat (s : State) (x y z : Bool) :
    (writeAdderFlags s x y z).dat = s.dat := rfl

@[simp] theorem writeAdderFlags_mask (s : State) (x y z : Bool) :
    (writeAdderFlags s x y z).mask = s.mask := rfl

@[simp] theorem writeAdderFlags_req (s : State) (x y z : Bool) :
    (writeAdderFlags s x y z).req = s.req := rfl

@[simp] theorem writeAdderFlags_rstat (s : State) (x y z : Bool) :
    (writeAdderFlags s x y z).rstat = s.rstat := rfl

@[simp] theorem writeAdderFlags_rpc (s : State) (x y z : Bool) :
    (writeAdderFlags s x y z).rpc = s.rpc := rfl

@[simp] theorem writeAdderFlags_vect (s : State) (x y z : Bool) :
    (writeAdderFlags s x y z).vect = s.vect := rfl

@[simp] theorem writeAdderFlags_sys (s : State) (x y z : Bool) :
    (writeAdderFlags s x y z).sys = s.sys := rfl

@[simp] theorem writeAdderFlags_ie (s : State) (x y z : Bool) :
    (writeAdderFlags s x y z).ie = s.ie := rfl

@[simp] theorem writeAdderFlags_mem (s : State) (x y z : Bool) :
    (writeAdderFlags s x y z).mem = s.mem := rfl

@[simp] theorem writeAdderFlags_state (s : State) (x y z : Bool) :
    (writeAdderFlags s x y z).state = s.state := rfl

@[simp] theorem writeAdderFlags_schedule (s : State) (x y z : Bool) :
    (writeAdderFlags s x y z).schedule = s.schedule := rfl

@[simp] theorem writeOverflowFlags_pc (s : State) (x y : Bool) :
    (writeOverflowFlags s x y).pc = s.pc := rfl

@[simp] theorem writeOverflowFlags_ir (s : State) (x y : Bool) :
    (writeOverflowFlags s x y).ir = s.ir := rfl

@[simp] theorem writeOverflowFlags_adr (s : State) (x y : Bool) :
    (writeOverflowFlags s x y).adr = s.adr := rfl

@[simp] theorem writeOverflowFlags_dat (s : State) (x y : Bool) :
    (writeOverflowFlags s x y).dat = s.dat := rfl

@[simp] theorem writeOverflowFlags_mask (s : State) (x y : Bool) :
    (writeOverflowFlags s x y).mask = s.mask := rfl

@[simp] theorem writeOverflowFlags_req (s : State) (x y : Bool) :
    (writeOverflowFlags s x y).req = s.req := rfl

@[simp] theorem writeOverflowFlags_rstat (s : State) (x y : Bool) :
    (writeOverflowFlags s x y).rstat = s.rstat := rfl

@[simp] theorem writeOverflowFlags_rpc (s : State) (x y : Bool) :
    (writeOverflowFlags s x y).rpc = s.rpc := rfl

@[simp] theorem writeOverflowFlags_vect (s : State) (x y : Bool) :
    (writeOverflowFlags s x y).vect = s.vect := rfl

@[simp] theorem writeOverflowFlags_sys (s : State) (x y : Bool) :
    (writeOverflowFlags s x y).sys = s.sys := rfl

@[simp] theorem writeOverflowFlags_ie (s : State) (x y : Bool) :
    (writeOverflowFlags s x y).ie = s.ie := rfl

@[simp] theorem writeOverflowFlags_mem (s : State) (x y : Bool) :
    (writeOverflowFlags s x y).mem = s.mem := rfl

@[simp] theorem writeOverflowFlags_state (s : State) (x y : Bool) :
    (writeOverflowFlags s x y).state = s.state := rfl

@[simp] theorem writeOverflowFlags_schedule (s : State) (x y : Bool) :
    (writeOverflowFlags s x y).schedule = s.schedule := rfl

@[simp] theorem writeCompareFlags_pc (s : State) (A B : Word) :
    (writeCompareFlags s A B).pc = s.pc := rfl

@[simp] theorem writeCompareFlags_ir (s : State) (A B : Word) :
    (writeCompareFlags s A B).ir = s.ir := rfl

@[simp] theorem writeCompareFlags_adr (s : State) (A B : Word) :
    (writeCompareFlags s A B).adr = s.adr := rfl

@[simp] theorem writeCompareFlags_dat (s : State) (A B : Word) :
    (writeCompareFlags s A B).dat = s.dat := rfl

@[simp] theorem writeCompareFlags_mask (s : State) (A B : Word) :
    (writeCompareFlags s A B).mask = s.mask := rfl

@[simp] theorem writeCompareFlags_req (s : State) (A B : Word) :
    (writeCompareFlags s A B).req = s.req := rfl

@[simp] theorem writeCompareFlags_rstat (s : State) (A B : Word) :
    (writeCompareFlags s A B).rstat = s.rstat := rfl

@[simp] theorem writeCompareFlags_rpc (s : State) (A B : Word) :
    (writeCompareFlags s A B).rpc = s.rpc := rfl

@[simp] theorem writeCompareFlags_vect (s : State) (A B : Word) :
    (writeCompareFlags s A B).vect = s.vect := rfl

@[simp] theorem writeCompareFlags_sys (s : State) (A B : Word) :
    (writeCompareFlags s A B).sys = s.sys := rfl

@[simp] theorem writeCompareFlags_ie (s : State) (A B : Word) :
    (writeCompareFlags s A B).ie = s.ie := rfl

@[simp] theorem writeCompareFlags_mem (s : State) (A B : Word) :
    (writeCompareFlags s A B).mem = s.mem := rfl

@[simp] theorem writeCompareFlags_state (s : State) (A B : Word) :
    (writeCompareFlags s A B).state = s.state := rfl

@[simp] theorem writeCompareFlags_schedule (s : State) (A B : Word) :
    (writeCompareFlags s A B).schedule = s.schedule := rfl

@[simp] theorem withAddress_regs (s : State) (a : Index) (disp : Word) :
    (withAddress s a disp).regs = s.regs := rfl

@[simp] theorem withAddress_pc (s : State) (a : Index) (disp : Word) :
    (withAddress s a disp).pc = s.pc := rfl

@[simp] theorem withAddress_ir (s : State) (a : Index) (disp : Word) :
    (withAddress s a disp).ir = s.ir := rfl

@[simp] theorem withAddress_dat (s : State) (a : Index) (disp : Word) :
    (withAddress s a disp).dat = s.dat := rfl

@[simp] theorem withAddress_mask (s : State) (a : Index) (disp : Word) :
    (withAddress s a disp).mask = s.mask := rfl

@[simp] theorem withAddress_req (s : State) (a : Index) (disp : Word) :
    (withAddress s a disp).req = s.req := rfl

@[simp] theorem withAddress_rstat (s : State) (a : Index) (disp : Word) :
    (withAddress s a disp).rstat = s.rstat := rfl

@[simp] theorem withAddress_rpc (s : State) (a : Index) (disp : Word) :
    (withAddress s a disp).rpc = s.rpc := rfl

@[simp] theorem withAddress_vect (s : State) (a : Index) (disp : Word) :
    (withAddress s a disp).vect = s.vect := rfl

@[simp] theorem withAddress_sys (s : State) (a : Index) (disp : Word) :
    (withAddress s a disp).sys = s.sys := rfl

@[simp] theorem withAddress_ie (s : State) (a : Index) (disp : Word) :
    (withAddress s a disp).ie = s.ie := rfl

@[simp] theorem withAddress_mem (s : State) (a : Index) (disp : Word) :
    (withAddress s a disp).mem = s.mem := rfl

@[simp] theorem withAddress_state (s : State) (a : Index) (disp : Word) :
    (withAddress s a disp).state = s.state := rfl

@[simp] theorem withAddress_schedule (s : State) (a : Index) (disp : Word) :
    (withAddress s a disp).schedule = s.schedule := rfl

@[simp] theorem withAddress_adr (s : State) (a : Index) (disp : Word) :
    (withAddress s a disp).adr = effectiveAddress s a disp := rfl

/-! The groups of flag writes, bit by bit (R205, R210). -/

theorem readReg_writeAdderFlags (s : State) (x y z : Bool) {r : Index} (h : r ≠ Config.ccReg) :
    readReg (writeAdderFlags s x y z) r = readReg s r := by
  simp [writeAdderFlags, readReg_writeFlag, h]

theorem readReg_writeOverflowFlags (s : State) (x y : Bool) {r : Index} (h : r ≠ Config.ccReg) :
    readReg (writeOverflowFlags s x y) r = readReg s r := by
  simp [writeOverflowFlags, readReg_writeFlag, h]

theorem readReg_writeCompareFlags (s : State) (A B : Word) {r : Index} (h : r ≠ Config.ccReg) :
    readReg (writeCompareFlags s A B) r = readReg s r := by
  simp [writeCompareFlags, readReg_writeFlag, h]

theorem ccBit_writeAdderFlags (s : State) (x y z : Bool) (k : Index) :
    ccBit (writeAdderFlags s x y z) k
      = if k = 7 then z else if k = 6 then y else if k = 5 then x else ccBit s k := by
  simp only [writeAdderFlags, ccBit_writeFlag]
  rfl

theorem ccBit_writeOverflowFlags (s : State) (x y : Bool) (k : Index) :
    ccBit (writeOverflowFlags s x y) k
      = if k = 6 then y else if k = 5 then x else ccBit s k := by
  simp only [writeOverflowFlags, ccBit_writeFlag]
  rfl

theorem ccBit_writeCompareFlags (s : State) (A B : Word) (k : Index) :
    ccBit (writeCompareFlags s A B) k
      = if k = 4 then decide (sint A < sint B) else if k = 3 then decide (uint A < uint B)
        else if k = 2 then decide (A = B) else if k = 1 then decide (uint B < uint A)
        else if k = 0 then decide (sint B < sint A) else ccBit s k := by
  simp only [writeCompareFlags, ccBit_writeFlag]
  rfl

/-- The Word of the effective address is the sum of the two Words. -/
theorem effectiveAddress_eq (s : State) (a : Index) (disp : Word) :
    effectiveAddress s a disp = readReg s a + disp := rfl

/-- The effective address depends on the register file alone. -/
theorem effectiveAddress_congr {s t : State} (h : t.regs = s.regs) (a : Index) (disp : Word) :
    effectiveAddress t a disp = effectiveAddress s a disp := by
  rw [effectiveAddress_eq, effectiveAddress_eq, readReg_congr h]

end Sys2Proof.Machine
end

