-- ==== Sys2Proof/Laws/Entry.lean ====
section
/-!
SUPPORT. What the entry sequence, the return and the interrupt check do, said once.
-/

namespace Sys2Proof.Machine

/-- The saved status bit by bit (R126). -/
theorem bitOf_savedStatus (s : State) (k : Index) :
    bitOf (savedStatus s) k = if k = 0 then s.sys else if k = 1 then s.ie else false := by
  revert k
  cases h : s.ie <;> cases h' : s.sys <;> simp only [savedStatus, h, h'] <;> decide

/-- The saved status as a number (R126). -/
theorem uint_savedStatus (s : State) : uint (savedStatus s) = 2 * s.ie.toNat + s.sys.toNat := by
  cases h : s.ie <;> cases h' : s.sys <;> simp only [savedStatus, h, h'] <;> decide

/-! The entry sequence, field by field (R264). -/

@[simp] theorem trapEntry_rpc (c : Cause) (s : State) : (trapEntry c s).rpc = s.pc := rfl
@[simp] theorem trapEntry_rstat (c : Cause) (s : State) : (trapEntry c s).rstat = savedStatus s := rfl
@[simp] theorem trapEntry_pc (c : Cause) (s : State) : (trapEntry c s).pc = s.vect := rfl
@[simp] theorem trapEntry_sys (c : Cause) (s : State) : (trapEntry c s).sys = true := rfl
@[simp] theorem trapEntry_ie (c : Cause) (s : State) : (trapEntry c s).ie = false := rfl
@[simp] theorem trapEntry_regs (c : Cause) (s : State) : (trapEntry c s).regs = s.regs := rfl
@[simp] theorem trapEntry_ir (c : Cause) (s : State) : (trapEntry c s).ir = s.ir := rfl
@[simp] theorem trapEntry_adr (c : Cause) (s : State) : (trapEntry c s).adr = s.adr := rfl
@[simp] theorem trapEntry_dat (c : Cause) (s : State) : (trapEntry c s).dat = s.dat := rfl
@[simp] theorem trapEntry_mask (c : Cause) (s : State) : (trapEntry c s).mask = s.mask := rfl
@[simp] theorem trapEntry_req (c : Cause) (s : State) : (trapEntry c s).req = s.req := rfl
@[simp] theorem trapEntry_vect (c : Cause) (s : State) : (trapEntry c s).vect = s.vect := rfl
@[simp] theorem trapEntry_mem (c : Cause) (s : State) : (trapEntry c s).mem = s.mem := rfl
@[simp] theorem trapEntry_state (c : Cause) (s : State) : (trapEntry c s).state = s.state := rfl
@[simp] theorem trapEntry_schedule (c : Cause) (s : State) : (trapEntry c s).schedule = s.schedule := rfl

/-! The return, field by field (R240, R267). -/

@[simp] theorem returnFromTrap_pc (s : State) : (returnFromTrap s).pc = s.rpc := rfl
@[simp] theorem returnFromTrap_ie (s : State) : (returnFromTrap s).ie = bitOf s.rstat 1 := rfl
@[simp] theorem returnFromTrap_sys (s : State) : (returnFromTrap s).sys = false := rfl
@[simp] theorem returnFromTrap_regs (s : State) : (returnFromTrap s).regs = s.regs := rfl
@[simp] theorem returnFromTrap_ir (s : State) : (returnFromTrap s).ir = s.ir := rfl
@[simp] theorem returnFromTrap_adr (s : State) : (returnFromTrap s).adr = s.adr := rfl
@[simp] theorem returnFromTrap_dat (s : State) : (returnFromTrap s).dat = s.dat := rfl
@[simp] theorem returnFromTrap_mask (s : State) : (returnFromTrap s).mask = s.mask := rfl
@[simp] theorem returnFromTrap_req (s : State) : (returnFromTrap s).req = s.req := rfl
@[simp] theorem returnFromTrap_rstat (s : State) : (returnFromTrap s).rstat = s.rstat := rfl
@[simp] theorem returnFromTrap_rpc (s : State) : (returnFromTrap s).rpc = s.rpc := rfl
@[simp] theorem returnFromTrap_vect (s : State) : (returnFromTrap s).vect = s.vect := rfl
@[simp] theorem returnFromTrap_mem (s : State) : (returnFromTrap s).mem = s.mem := rfl
@[simp] theorem returnFromTrap_state (s : State) : (returnFromTrap s).state = s.state := rfl
@[simp] theorem returnFromTrap_schedule (s : State) : (returnFromTrap s).schedule = s.schedule := rfl

/-- Which request the priority encoder answers: a set bit with no set bit below it (R258). -/
theorem lowestSet_eq_some (w : Word) (n : Index) :
    lowestSet w = some n ↔ bitOf w n = true ∧ ∀ m : Index, m < n → bitOf w m = false := by
  have hp : requestNumbers.Pairwise (· < ·) := by decide
  have hm : ∀ k : Index, k ∈ requestNumbers := by decide
  rw [lowestSet, List.find?_eq_some_iff_append]
  constructor
  · rintro ⟨hn, before, after, hsplit, hbefore⟩
    refine ⟨hn, fun m hlt => ?_⟩
    have hmem := hm m
    rw [hsplit] at hmem hp
    rcases List.mem_append.1 hmem with h | h
    · simpa using hbefore m h
    · rcases List.mem_cons.1 h with h | h
      · exact absurd hlt (by rw [h]; exact lt_irrefl _)
      · have := (List.pairwise_cons.1 (List.pairwise_append.1 hp).2.1).1 m h
        exact absurd this (not_lt.2 (le_of_lt hlt))
  · rintro ⟨hn, hlow⟩
    obtain ⟨before, after, hsplit⟩ := List.append_of_mem (hm n)
    refine ⟨hn, before, after, hsplit, fun m hmem => ?_⟩
    rw [hsplit] at hp
    have := (List.pairwise_append.1 hp).2.2 m hmem n (List.mem_cons_self ..)
    simp [hlow m this]

/-- The priority encoder answers nothing when no bit is set. -/
theorem lowestSet_eq_none (w : Word) :
    lowestSet w = none ↔ ∀ k : Index, bitOf w k = false := by
  have hm : ∀ k : Index, k ∈ requestNumbers := by decide
  rw [lowestSet, List.find?_eq_none]
  exact ⟨fun h k => by simpa using h k (hm k), fun h k _ => by simp [h k]⟩

/-- Which interrupt the check takes (R257, R259). -/
theorem interruptTaken_eq_some (s : State) (n : Index) :
    interruptTaken s = some n ↔ s.ie = true ∧ lowestSet (s.req &&& s.mask) = some n := by
  unfold interruptTaken
  split <;> simp_all

/-- The request taken is pending, unmasked, and enabled (R257). -/
theorem interruptTaken_bits {s : State} {n : Index} (h : interruptTaken s = some n) :
    s.ie = true ∧ bitOf s.req n = true ∧ bitOf s.mask n = true := by
  obtain ⟨hie, hn⟩ := (interruptTaken_eq_some s n).1 h
  have := ((lowestSet_eq_some _ n).1 hn).1
  rw [bitOf_and, Bool.and_eq_true] at this
  exact ⟨hie, this⟩

/-- Everything the interrupt check can do (R258): nothing, or take one request while Executing. -/
theorem interruptCheck_cases (s : State) :
    interruptCheck s = s
      ∨ ∃ n, s.state = .executing ∧ interruptTaken s = some n ∧ interruptCheck s = takeInterrupt n s := by
  unfold interruptCheck
  split
  · next h =>
    split
    · next n hn => exact .inr ⟨n, h, hn, rfl⟩
    · exact .inl rfl
  · exact .inl rfl

/-- With interrupts disabled the check does nothing (R130). -/
theorem interruptCheck_of_ie_false {s : State} (h : s.ie = false) : interruptCheck s = s := by
  rcases interruptCheck_cases s with h' | ⟨n, -, hn, -⟩
  · exact h'
  · rw [(interruptTaken_bits hn).1] at h
    cases h

/-! Fields no interrupt check changes. -/

@[simp] theorem interruptCheck_regs (s : State) : (interruptCheck s).regs = s.regs := by
  rcases interruptCheck_cases s with h | ⟨n, -, -, h⟩ <;> rw [h]
  rfl

@[simp] theorem interruptCheck_ir (s : State) : (interruptCheck s).ir = s.ir := by
  rcases interruptCheck_cases s with h | ⟨n, -, -, h⟩ <;> rw [h]
  rfl

@[simp] theorem interruptCheck_adr (s : State) : (interruptCheck s).adr = s.adr := by
  rcases interruptCheck_cases s with h | ⟨n, -, -, h⟩ <;> rw [h]
  rfl

@[simp] theorem interruptCheck_dat (s : State) : (interruptCheck s).dat = s.dat := by
  rcases interruptCheck_cases s with h | ⟨n, -, -, h⟩ <;> rw [h]
  rfl

@[simp] theorem interruptCheck_mask (s : State) : (interruptCheck s).mask = s.mask := by
  rcases interruptCheck_cases s with h | ⟨n, -, -, h⟩ <;> rw [h]
  rfl

@[simp] theorem interruptCheck_vect (s : State) : (interruptCheck s).vect = s.vect := by
  rcases interruptCheck_cases s with h | ⟨n, -, -, h⟩ <;> rw [h]
  rfl

@[simp] theorem interruptCheck_mem (s : State) : (interruptCheck s).mem = s.mem := by
  rcases interruptCheck_cases s with h | ⟨n, -, -, h⟩ <;> rw [h]
  rfl

@[simp] theorem interruptCheck_state (s : State) : (interruptCheck s).state = s.state := by
  rcases interruptCheck_cases s with h | ⟨n, -, -, h⟩ <;> rw [h]
  rfl

@[simp] theorem interruptCheck_schedule (s : State) : (interruptCheck s).schedule = s.schedule := by
  rcases interruptCheck_cases s with h | ⟨n, -, -, h⟩ <;> rw [h]
  rfl

end Sys2Proof.Machine
end

