-- ==== Sys2Proof/Laws/Memory.lean ====
section
/-!
SUPPORT. Memory: what a write leaves at every address, and that every memory operation keeps the
canonical form.
-/

namespace Sys2Proof.Machine

/-! ## The canonical form -/

theorem Memory.wfFrom_cons (lo k : Nat) (b : Byte) (rest : Memory) :
    Memory.wfFrom lo ((k, b) :: rest) = true
      ↔ lo ≤ k ∧ k < Config.memBytes ∧ b ≠ Config.resetByte ∧ Memory.wfFrom (k + 1) rest = true := by
  simp [Memory.wfFrom, and_assoc]

theorem Memory.wfFrom_mono {lo hi : Nat} (h : lo ≤ hi) :
    ∀ {m : Memory}, Memory.wfFrom hi m = true → Memory.wfFrom lo m = true
  | [], _ => rfl
  | (k, b) :: rest, hm => by
    rw [Memory.wfFrom_cons] at hm ⊢
    exact ⟨Nat.le_trans h hm.1, hm.2⟩

/-- Below its first possible address a canonical memory lists nothing. -/
theorem readByte_below {addr : Nat} :
    ∀ {lo : Nat} {m : Memory}, Memory.wfFrom lo m = true → addr < lo →
      readByte m addr = Config.resetByte
  | _, [], _, _ => rfl
  | lo, (k, b) :: rest, hm, h => by
    rw [Memory.wfFrom_cons] at hm
    have hk : k ≠ addr := by omega
    simp only [readByte, if_neg hk]
    exact readByte_below hm.2.2.2 (by omega)

theorem consByte_wfFrom {lo addr : Nat} {v : Byte} {m : Memory} (hlo : lo ≤ addr)
    (ha : addr < Config.memBytes) (hm : Memory.wfFrom (addr + 1) m = true) :
    Memory.wfFrom lo (consByte addr v m) = true := by
  unfold consByte
  split
  · exact Memory.wfFrom_mono (by omega) hm
  · next hv => exact (Memory.wfFrom_cons ..).2 ⟨hlo, ha, hv, hm⟩

theorem writeByte_wfFrom {addr : Nat} {v : Byte} (ha : addr < Config.memBytes) :
    ∀ {lo : Nat} {m : Memory}, lo ≤ addr → Memory.wfFrom lo m = true →
      Memory.wfFrom lo (writeByte m addr v) = true
  | lo, [], hlo, _ => consByte_wfFrom hlo ha rfl
  | lo, (k, b) :: rest, hlo, hm => by
    have hm' := (Memory.wfFrom_cons ..).1 hm
    simp only [writeByte]
    split
    · next h =>
      exact consByte_wfFrom hlo ha ((Memory.wfFrom_cons ..).2 ⟨by omega, hm'.2⟩)
    · split
      · next h => exact consByte_wfFrom hlo ha (h ▸ hm'.2.2.2)
      · next h h' =>
        exact (Memory.wfFrom_cons ..).2
          ⟨hm'.1, hm'.2.1, hm'.2.2.1, writeByte_wfFrom ha (by omega) hm'.2.2.2⟩

/-- Writing one byte keeps the canonical form. -/
theorem writeByte_wf {m : Memory} {addr : Nat} (v : Byte) (ha : addr < Config.memBytes)
    (hm : m.wf = true) : (writeByte m addr v : Memory).wf = true :=
  writeByte_wfFrom ha (Nat.zero_le _) hm

theorem highByteAddr_lt (addr : Word) : highByteAddr addr < Config.memBytes := by
  have := addr.isLt
  simp only [highByteAddr, Config.memBytes, uint]
  omega

theorem lowByteAddr_lt (addr : Word) : lowByteAddr addr < Config.memBytes := by
  have := addr.isLt
  simp only [lowByteAddr, Config.memBytes, uint]
  omega

/-- Writing one cell keeps the canonical form. -/
theorem writeWord_wf {m : Memory} (addr v : Word) (hm : m.wf = true) :
    (writeWord m addr v : Memory).wf = true :=
  writeByte_wf _ (lowByteAddr_lt _) (writeByte_wf _ (highByteAddr_lt _) hm)

/-- Loading an image keeps the canonical form. -/
theorem loadImage_wf : ∀ (image : List Byte) (k : Nat) {m : Memory}, m.wf = true →
    (loadImage m k image : Memory).wf = true
  | _ :: _ :: rest, k, _, hm => loadImage_wf rest (k + 1) (writeWord_wf _ _ hm)
  | [_], _, _, hm => hm
  | [], _, _, hm => hm

/-! ## Reading after writing -/

theorem readByte_consByte {m : Memory} {lo addr : Nat} {v : Byte} (a : Nat)
    (hm : Memory.wfFrom lo m = true) (h : addr < lo) :
    readByte (consByte addr v m) a = if a = addr then v else readByte m a := by
  unfold consByte
  split
  · next hv =>
    split
    · next e => rw [e, readByte_below hm h, hv]
    · rfl
  · simp only [readByte, eq_comm]

theorem readByte_writeByte_from (addr : Nat) (v : Byte) (a : Nat) :
    ∀ {lo : Nat} {m : Memory}, Memory.wfFrom lo m = true →
      readByte (writeByte m addr v) a = if a = addr then v else readByte m a
  | lo, [], _ => readByte_consByte (lo := addr + 1) a rfl (by omega)
  | lo, (k, b) :: rest, hm => by
    have hm' := (Memory.wfFrom_cons ..).1 hm
    simp only [writeByte]
    split
    · next h =>
      exact readByte_consByte (lo := k) a
        ((Memory.wfFrom_cons ..).2 ⟨Nat.le_refl k, hm'.2⟩) h
    · split
      · next h =>
        rw [readByte_consByte (lo := k + 1) a hm'.2.2.2 (by omega)]
        by_cases e : a = addr
        · simp [e]
        · rw [if_neg e, if_neg e, readByte, if_neg (by omega)]
      · next h h' =>
        by_cases e : k = a
        · have : a ≠ addr := by omega
          simp [readByte, e, this]
        · simp only [readByte, if_neg e]
          exact readByte_writeByte_from addr v a hm'.2.2.2

/-- Everything one byte write does to what memory reads as: that byte, and no other. -/
theorem readByte_writeByte {m : Memory} (addr : Nat) (v : Byte) (a : Nat) (hm : m.wf = true) :
    readByte (writeByte m addr v) a = if a = addr then v else readByte m a :=
  readByte_writeByte_from addr v a hm

/-- A Word is its two bytes, high byte first. -/
@[simp] theorem wordOfBytes_bytes (w : Word) : wordOfBytes (highByte w) (lowByte w) = w := by
  refine BitVec.eq_of_getLsbD_eq fun i hi => ?_
  simp only [wordOfBytes, highByte, lowByte, BitVec.getLsbD_append, BitVec.getLsbD_extractLsb']
  split
  · next h => simp [h]
  · next h => simp [show i - 8 < 8 by omega, show 8 + (i - 8) = i by omega]

@[simp] theorem highByte_wordOfBytes (hi lo : Byte) : highByte (wordOfBytes hi lo) = hi := by
  refine BitVec.eq_of_getLsbD_eq fun i h => ?_
  rw [highByte, BitVec.getLsbD_extractLsb', wordOfBytes, BitVec.getLsbD_append]
  simp [h]

@[simp] theorem lowByte_wordOfBytes (hi lo : Byte) : lowByte (wordOfBytes hi lo) = lo := by
  refine BitVec.eq_of_getLsbD_eq fun i h => ?_
  rw [lowByte, BitVec.getLsbD_extractLsb', wordOfBytes, BitVec.getLsbD_append]
  simp [h]

/-- Everything a cell write does to what memory reads as, byte by byte. -/
theorem readByte_writeWord {m : Memory} (addr v : Word) (a : Nat) (hm : m.wf = true) :
    readByte (writeWord m addr v) a
      = if a = lowByteAddr addr then lowByte v else if a = highByteAddr addr then highByte v
        else readByte m a := by
  rw [writeWord, readByte_writeByte _ _ _ (writeByte_wf _ (highByteAddr_lt _) hm),
    readByte_writeByte _ _ _ hm]

/-- Everything a cell write does to what memory reads as, cell by cell. -/
theorem readWord_writeWord {m : Memory} (addr v a : Word) (hm : m.wf = true) :
    readWord (writeWord m addr v) a = if a = addr then v else readWord m a := by
  rw [readWord, readByte_writeWord _ _ _ hm, readByte_writeWord _ _ _ hm]
  by_cases h : a = addr
  · subst h
    have : highByteAddr a ≠ lowByteAddr a := by simp only [highByteAddr, lowByteAddr]; omega
    simp [this]
  · have hne : uint a ≠ uint addr := fun e => h (BitVec.eq_of_toNat_eq e)
    have h1 : highByteAddr a ≠ lowByteAddr addr := by simp only [highByteAddr, lowByteAddr]; omega
    have h2 : highByteAddr a ≠ highByteAddr addr := by simp only [highByteAddr]; omega
    have h3 : lowByteAddr a ≠ lowByteAddr addr := by simp only [lowByteAddr]; omega
    have h4 : lowByteAddr a ≠ highByteAddr addr := by simp only [highByteAddr, lowByteAddr]; omega
    simp [h, h1, h2, h3, h4, readWord]

end Sys2Proof.Machine
end

