-- ==== Sys2Proof/Laws/Step.lean ====
section
/-!
SUPPORT. The fetch field by field, and the step taken apart: whose turn it is, and what that turn
does.
-/

namespace Sys2Proof.Machine

/-! ## Fetch (R178) -/

/-- The address after `pc`, modulo 65536. -/
theorem truncNat_succ (w : Word) : truncNat (uint w + 1) = w + 1 := by
  refine BitVec.eq_of_toNat_eq ?_
  simp [BitVec.toNat_add]

/-- The instruction phase of a one-word instruction (R170, R178). -/
theorem fetchInstr_one {s : State} (h : isTwoWord (readWord s.mem s.pc) = false) :
    fetchInstr s = (decode (readWord s.mem s.pc) 0,
      { s with pc := s.pc + 1, ir := readWord s.mem s.pc }) := by
  simp only [fetchInstr, fetchFirst, fetchWord, h, truncNat_succ]
  rfl

/-- The instruction phase of a two-word instruction (R175, R178). -/
theorem fetchInstr_two {s : State} (h : isTwoWord (readWord s.mem s.pc) = true) :
    fetchInstr s = (decode (readWord s.mem s.pc) (readWord s.mem (s.pc + 1)),
      { s with pc := s.pc + 2, ir := readWord s.mem s.pc, adr := readWord s.mem (s.pc + 1) }) := by
  have h2 : s.pc + 1 + 1 = s.pc + 2 := by rw [BitVec.add_assoc]; rfl
  simp only [fetchInstr, fetchFirst, fetchWord, h, truncNat_succ, State.setIr_mem, State.setPc_mem,
    State.setIr_pc, State.setPc_pc, if_true, h2]
  rfl

/-! Fields no fetch changes. -/

@[simp] theorem fetchInstr_regs (s : State) : (fetchInstr s).2.regs = s.regs := by
  cases h : isTwoWord (readWord s.mem s.pc)
  · rw [fetchInstr_one h]
  · rw [fetchInstr_two h]

@[simp] theorem fetchInstr_dat (s : State) : (fetchInstr s).2.dat = s.dat := by
  cases h : isTwoWord (readWord s.mem s.pc)
  · rw [fetchInstr_one h]
  · rw [fetchInstr_two h]

@[simp] theorem fetchInstr_mask (s : State) : (fetchInstr s).2.mask = s.mask := by
  cases h : isTwoWord (readWord s.mem s.pc)
  · rw [fetchInstr_one h]
  · rw [fetchInstr_two h]

@[simp] theorem fetchInstr_req (s : State) : (fetchInstr s).2.req = s.req := by
  cases h : isTwoWord (readWord s.mem s.pc)
  · rw [fetchInstr_one h]
  · rw [fetchInstr_two h]

@[simp] theorem fetchInstr_rstat (s : State) : (fetchInstr s).2.rstat = s.rstat := by
  cases h : isTwoWord (readWord s.mem s.pc)
  · rw [fetchInstr_one h]
  · rw [fetchInstr_two h]

@[simp] theorem fetchInstr_rpc (s : State) : (fetchInstr s).2.rpc = s.rpc := by
  cases h : isTwoWord (readWord s.mem s.pc)
  · rw [fetchInstr_one h]
  · rw [fetchInstr_two h]

@[simp] theorem fetchInstr_vect (s : State) : (fetchInstr s).2.vect = s.vect := by
  cases h : isTwoWord (readWord s.mem s.pc)
  · rw [fetchInstr_one h]
  · rw [fetchInstr_two h]

@[simp] theorem fetchInstr_sys (s : State) : (fetchInstr s).2.sys = s.sys := by
  cases h : isTwoWord (readWord s.mem s.pc)
  · rw [fetchInstr_one h]
  · rw [fetchInstr_two h]

@[simp] theorem fetchInstr_ie (s : State) : (fetchInstr s).2.ie = s.ie := by
  cases h : isTwoWord (readWord s.mem s.pc)
  · rw [fetchInstr_one h]
  · rw [fetchInstr_two h]

@[simp] theorem fetchInstr_mem (s : State) : (fetchInstr s).2.mem = s.mem := by
  cases h : isTwoWord (readWord s.mem s.pc)
  · rw [fetchInstr_one h]
  · rw [fetchInstr_two h]

@[simp] theorem fetchInstr_state (s : State) : (fetchInstr s).2.state = s.state := by
  cases h : isTwoWord (readWord s.mem s.pc)
  · rw [fetchInstr_one h]
  · rw [fetchInstr_two h]

@[simp] theorem fetchInstr_schedule (s : State) : (fetchInstr s).2.schedule = s.schedule := by
  cases h : isTwoWord (readWord s.mem s.pc)
  · rw [fetchInstr_one h]
  · rw [fetchInstr_two h]

@[simp] theorem fetchInstr_ir (s : State) : (fetchInstr s).2.ir = readWord s.mem s.pc := by
  cases h : isTwoWord (readWord s.mem s.pc)
  · rw [fetchInstr_one h]
  · rw [fetchInstr_two h]

/-! ## Turns -/

theorem nextTurn_of_schedule {s : State} {u : Turn} {rest : List Turn} (h : s.schedule = u :: rest) :
    nextTurn s = u := by
  rw [nextTurn, h]
  rfl

/-- The core's turn while Executing is one cycle (R296). -/
theorem step_core {s : State} (h : nextTurn s = .core) (he : s.state = .executing) :
    step s = finishCycle (exec (fetchInstr (takeTurn s)).1 (fetchInstr (takeTurn s)).2) := by
  have he' : (takeTurn s).state = .executing := he
  simp only [step, h, coreTurn, he', if_true, cycle]

/-- The core's turn outside Executing (R136). -/
theorem step_idle {s : State} (h : nextTurn s = .core) (he : s.state ≠ .executing) :
    step s = .next (takeTurn s) := by
  have he' : (takeTurn s).state ≠ .executing := he
  simp only [step, h, coreTurn, if_neg he']

/-- The environment's turn is one move (R299). -/
theorem step_host {s : State} {m : HostMove} (h : nextTurn s = .host m) :
    step s = .next (hostMove m (takeTurn s)).1 := by
  simp only [step, h]

/-- If a step answers a next state, then one of these happened: a cycle whose instruction answered
`u`, followed by the interrupt check; the core's turn outside Executing; one move of the
environment. -/
theorem step_cases {s t : State} (h : step s = .next t) :
    (nextTurn s = .core ∧ s.state = .executing
      ∧ ∃ u, exec (fetchInstr (takeTurn s)).1 (fetchInstr (takeTurn s)).2 = .next u
        ∧ t = interruptCheck u)
    ∨ (nextTurn s = .core ∧ s.state ≠ .executing ∧ t = takeTurn s)
    ∨ (∃ m, nextTurn s = .host m ∧ t = (hostMove m (takeTurn s)).1) := by
  cases hn : nextTurn s with
  | core =>
    by_cases he : s.state = .executing
    · refine .inl ⟨rfl, he, ?_⟩
      rw [step_core hn he] at h
      cases hx : exec (fetchInstr (takeTurn s)).1 (fetchInstr (takeTurn s)).2 with
      | next u =>
        rw [hx] at h
        exact ⟨u, rfl, by injection h with h; exact h.symm⟩
      | fault r => rw [hx] at h; cases h
      | refused r => rw [hx] at h; cases h
    · rw [step_idle hn he] at h
      exact .inr (.inl ⟨rfl, he, by injection h with h; exact h.symm⟩)
  | host m =>
    rw [step_host hn] at h
    exact .inr (.inr ⟨m, rfl, by injection h with h; exact h.symm⟩)

/-! The turn removed from the schedule changes nothing else. -/

@[simp] theorem takeTurn_regs (s : State) : (takeTurn s).regs = s.regs := rfl
@[simp] theorem takeTurn_pc (s : State) : (takeTurn s).pc = s.pc := rfl
@[simp] theorem takeTurn_ir (s : State) : (takeTurn s).ir = s.ir := rfl
@[simp] theorem takeTurn_adr (s : State) : (takeTurn s).adr = s.adr := rfl
@[simp] theorem takeTurn_dat (s : State) : (takeTurn s).dat = s.dat := rfl
@[simp] theorem takeTurn_mask (s : State) : (takeTurn s).mask = s.mask := rfl
@[simp] theorem takeTurn_req (s : State) : (takeTurn s).req = s.req := rfl
@[simp] theorem takeTurn_rstat (s : State) : (takeTurn s).rstat = s.rstat := rfl
@[simp] theorem takeTurn_rpc (s : State) : (takeTurn s).rpc = s.rpc := rfl
@[simp] theorem takeTurn_vect (s : State) : (takeTurn s).vect = s.vect := rfl
@[simp] theorem takeTurn_sys (s : State) : (takeTurn s).sys = s.sys := rfl
@[simp] theorem takeTurn_ie (s : State) : (takeTurn s).ie = s.ie := rfl
@[simp] theorem takeTurn_mem (s : State) : (takeTurn s).mem = s.mem := rfl
@[simp] theorem takeTurn_state (s : State) : (takeTurn s).state = s.state := rfl

/-! ## The environment's moves: what each can change -/

/-- A Load changes memory and `state`, or nothing (R292). -/
theorem hostLoad_cases (image : List Byte) (s : State) :
    (hostLoad image s).1 = s
      ∨ (betweenRuns s = true ∧ imageWords image ≤ Config.memWords
        ∧ hostLoad image s = ((s.setMem (loadImage s.mem 0 image)).setState .ready, .loaded)) := by
  unfold hostLoad
  split
  · next hb =>
    split
    · exact .inl rfl
    · next hn => exact .inr ⟨hb, Nat.le_of_not_lt hn, rfl⟩
  · exact .inl rfl

/-- A launch configuration changes `vect`, `mask`, `ie`, or nothing (R293). -/
theorem hostConfigure_cases (v m : Option Word) (e : Option Bool) (s : State) :
    hostConfigure v m e s = s
      ∨ (betweenRuns s = true ∧ hostConfigure v m e s
        = { s with vect := v.getD s.vect, mask := m.getD s.mask, ie := e.getD s.ie }) := by
  unfold hostConfigure
  split
  · next hb => exact .inr ⟨hb, rfl⟩
  · exact .inl rfl

/-- Run, Pause and Cancel change `state`, or nothing (R294, R295). -/
theorem moveState_cases (source target : ProcState) (s : State) :
    moveState source target s = s
      ∨ (s.state = source ∧ moveState source target s = s.setState target) := by
  unfold moveState
  split
  · next h => exact .inr ⟨h, rfl⟩
  · exact .inl rfl

/-- Raising requests changes `req`, or nothing (R256). -/
theorem hostRaise_cases (set : Word) (s : State) :
    hostRaise set s = s
      ∨ (s.state ≠ .halt ∧ hostRaise set s = s.setReq (s.req ||| set)) := by
  unfold hostRaise
  split
  · exact .inl rfl
  · next h => exact .inr ⟨h, rfl⟩

theorem betweenRuns_iff (s : State) :
    betweenRuns s = true ↔ s.state = .initialising ∨ s.state = .ready := by
  simp [betweenRuns]

end Sys2Proof.Machine
end

