-- ==== Sys2Proof/Laws/HostPort.lean ====
section
/-!
SUPPORT. What the environment's moves can change (R299), and what a loaded image reads as (R292).
-/

namespace Sys2Proof.Machine

/-- A move other than Reset keeps every item but the launch registers, memory, `req` and `state`, and
changes each of those only by its own move, where that is allowed. -/
theorem hostMove_frame {m : HostMove} {s t : State} (hm : m ≠ .reset) (ht : (hostMove m s).1 = t) :
    t.regs = s.regs ∧ t.pc = s.pc ∧ t.ir = s.ir ∧ t.adr = s.adr ∧ t.dat = s.dat
    ∧ t.rstat = s.rstat ∧ t.rpc = s.rpc ∧ t.sys = s.sys ∧ t.schedule = s.schedule
    ∧ ((t.vect = s.vect ∧ t.mask = s.mask ∧ t.ie = s.ie)
      ∨ ∃ v k e, m = .configure v k e ∧ betweenRuns s = true
        ∧ t.vect = v.getD s.vect ∧ t.mask = k.getD s.mask ∧ t.ie = e.getD s.ie)
    ∧ (t.mem = s.mem ∨ ∃ image, m = .load image ∧ betweenRuns s = true
        ∧ imageWords image ≤ Config.memWords ∧ t.mem = loadImage s.mem 0 image)
    ∧ (t.req = s.req ∨ ∃ set, m = .raiseIrq set ∧ t.req = s.req ||| set)
    ∧ (t.state = s.state
      ∨ (∃ image, m = .load image ∧ betweenRuns s = true ∧ t.state = .ready)
      ∨ (m = .run ∧ s.state = .ready ∧ t.state = .executing)
      ∨ (m = .pause ∧ s.state = .executing ∧ t.state = .ready)
      ∨ (m = .cancel ∧ s.state = .executing ∧ t.state = .halt)) := by
  subst ht
  cases m with
  | reset => exact absurd rfl hm
  | load i =>
    rcases hostLoad_cases i s with h | ⟨h1, h2, h⟩ <;> simp [hostMove, h]
    simp [h1, h2]
  | configure v m e =>
    rcases hostConfigure_cases v m e s with h | ⟨h1, h⟩ <;> simp [hostMove, *]
  | run => rcases moveState_cases .ready .executing s with h | ⟨h1, h⟩ <;> simp [hostMove, *]
  | pause => rcases moveState_cases .executing .ready s with h | ⟨h1, h⟩ <;> simp [hostMove, *]
  | cancel => rcases moveState_cases .executing .halt s with h | ⟨h1, h⟩ <;> simp [hostMove, *]
  | raiseIrq w => rcases hostRaise_cases w s with h | ⟨-, h⟩ <;> simp [hostMove, h]
  | read => simp [hostMove]

/-- Two bytes of the image as one Word, high byte first (R152). -/
theorem wordOfBytes_eq_truncNat (hi lo : Byte) :
    wordOfBytes hi lo = truncNat (256 * hi.toNat + lo.toNat) := by
  apply BitVec.eq_of_toNat_eq
  have := hi.isLt
  have := lo.isLt
  simp only [wordOfBytes, BitVec.toNat_append, truncNat, BitVec.toNat_ofNat]
  rw [← Nat.shiftLeft_add_eq_or_of_lt (by omega), Nat.shiftLeft_eq]
  simp
  omega

/-- What a cell holds after an image is written from cell `k` up: the image's pair of bytes where the
image covers the cell, what it held elsewhere (R292). -/
theorem readWord_loadImage : ∀ (n : Nat) (image : List Byte) (k : Nat) (m : Memory),
    image.length ≤ n → m.wf = true → k + image.length / 2 ≤ 65536 → ∀ addr : Word,
    readWord (loadImage m k image) addr
      = if k ≤ uint addr ∧ uint addr < k + image.length / 2 then
          truncNat (256 * (image.getD (2 * (uint addr - k)) 0).toNat
            + (image.getD (2 * (uint addr - k) + 1) 0).toNat)
        else readWord m addr := by
  intro n
  induction n with
  | zero =>
    intro image k m hn hm hk addr
    obtain rfl : image = [] := List.length_eq_zero_iff.1 (by omega)
    simp [loadImage]
  | succ n ih =>
    intro image k m hn hm hk addr
    match image with
    | [] => simp [loadImage]
    | [x] => simp [loadImage]
    | hi :: lo :: rest =>
      simp only [List.length_cons] at hn hk
      rw [loadImage, ih rest (k + 1) _ (by omega) (writeWord_wf _ _ hm) (by omega),
        readWord_writeWord _ _ _ hm]
      have hk' : uint (truncNat k) = k := by
        simp [uint]
        omega
      by_cases e : uint addr = k
      · rw [if_neg (by omega), if_pos (BitVec.eq_of_toNat_eq (e.trans hk'.symm)),
          if_pos (by simp only [List.length_cons]; omega), e]
        simp [wordOfBytes_eq_truncNat]
      · rw [if_neg (show ¬addr = truncNat k from fun h => e (by rw [h, hk']))]
        by_cases c : k + 1 ≤ uint addr ∧ uint addr < k + 1 + rest.length / 2
        · rw [if_pos c, if_pos (by simp only [List.length_cons]; omega)]
          obtain ⟨j, hj⟩ : ∃ j, uint addr = k + 1 + j := ⟨uint addr - (k + 1), by omega⟩
          rw [show uint addr - k = j + 1 by omega, show uint addr - (k + 1) = j by omega]
          simp [Nat.mul_add]
        · rw [if_neg c, if_neg (by simp only [List.length_cons]; omega)]

end Sys2Proof.Machine
end

