-- ==== Sys2Proof/Laws/Exec.lean ====
section
/-!
SUPPORT. What an instruction can change, said once for all fifteen; the instruction and the state a
cycle begins with; what the end of a cycle does.
-/

namespace Sys2Proof.Machine

/-- Every instruction has a meaning in every state (R308). -/
theorem exec_answers (i : Instr) (s : State) : ∃ t, exec i s = .next t := by
  cases i with
  | div d a b =>
    by_cases h : readReg s b = 0
    · exact ⟨trapEntry .divideByZero s, by simp only [exec, execDiv, if_pos h, raise]⟩
    · exact ⟨_, by simp only [exec, execDiv, if_neg h]; rfl⟩
  | _ => exact ⟨_, rfl⟩

/-- The first word of an RX or EXP instruction is the first of two (R170). -/
theorem isTwoWord_packWord (op : Nat) (d a : Index) (b : Nat) (ho : op < 16) (hb : b < 16) :
    isTwoWord (packWord op d a b) = decide (14 ≤ op) := by
  rw [packWord_eq_codeWord _ _ _ _ ho hb, isTwoWord_codeWord _ _ _ _ ho hb]

/-- If an instruction answers a next state, this is all it can have changed: the destination and `pc`
are left open, every other item is kept or changed by the instructions named. -/
theorem exec_frame (i : Instr) {s t : State} (h : exec i s = .next t) :
    t.mask = s.mask ∧ t.req = s.req ∧ t.vect = s.vect ∧ t.schedule = s.schedule ∧ t.ir = s.ir
    ∧ (t.state = s.state ∨ (∃ d a disp, i = .halt d a disp) ∧ t.state = .halt)
    ∧ (t.adr = s.adr ∨ isTwoWord ((encode i).headD 0) = true)
    ∧ (t.dat = s.dat ∨ ∃ d a disp, i = .load d a disp ∨ i = .store d a disp)
    ∧ (t.mem = s.mem ∨ ∃ d a disp, i = .store d a disp
        ∧ t.mem = writeWord s.mem (effectiveAddress s a disp) (readReg s d))
    ∧ (readReg t 15 = readReg s 15 ∨ writesFlags i = true)
    ∧ ((raisedBy i s = none ∧ t.rpc = s.rpc ∧ t.rstat = s.rstat
        ∧ ((t.sys = s.sys ∧ t.ie = s.ie)
          ∨ (∃ d a disp, i = .rfi d a disp) ∧ t.sys = false ∧ t.ie = bitOf s.rstat 1))
      ∨ ∃ c, raisedBy i s = some c ∧ t = trapEntry c s ∧ ∀ n, c ≠ .interrupt n) := by
  have tw := isTwoWord_packWord
  have r15 : ∀ (s : State) d v, readReg (writeReg s d v) 15 = readReg s 15 :=
    fun s d v => readReg_writeReg_cc s d v
  cases i with
  | div d a b =>
    by_cases hb : readReg s b = 0
    · simp only [exec, execDiv, if_pos hb, raise] at h
      injection h with h
      subst h
      simp [raisedBy, hb]
      left; rfl
    · simp only [exec, execDiv, if_neg hb] at h
      injection h with h
      subst h
      have hb' : ¬ readReg s b = 0#16 := hb
      simp [raisedBy, hb', writesFlags]
  | trap d a b =>
    injection h with h
    subst h
    simp [raisedBy]
    refine ⟨by left; rfl, ?_⟩
    intro n
    unfold trapCause
    split <;> simp
  | jumpc0 k a disp =>
    injection h with h
    subst h
    unfold jumpWhen jumpTo
    split <;> simp [raisedBy, encode, Instr.raw, RawInstr.words, tw] <;> (left; rfl)
  | jumpc1 k a disp =>
    injection h with h
    subst h
    unfold jumpWhen jumpTo
    split <;> simp [raisedBy, encode, Instr.raw, RawInstr.words, tw] <;> (left; rfl)
  | jump k a disp =>
    injection h with h
    subst h
    unfold jumpTo
    simp [raisedBy, encode, Instr.raw, RawInstr.words, tw]
    left; rfl
  | rfi d a disp =>
    injection h with h
    subst h
    simp [raisedBy]
    left; rfl
  | halt d a disp =>
    injection h with h
    subst h
    simp [raisedBy]
    left; rfl
  | jal d a disp =>
    injection h with h
    subst h
    simp [raisedBy, encode, Instr.raw, RawInstr.words, tw]
    left; exact r15 (withAddress s a disp) d s.pc
  | lea d a disp =>
    injection h with h
    subst h
    simp [raisedBy, encode, Instr.raw, RawInstr.words, tw]
    left; exact r15 _ _ _
  | load d a disp =>
    injection h with h
    subst h
    simp [raisedBy, encode, Instr.raw, RawInstr.words, tw]
    left; exact r15 _ _ _
  | store d a disp =>
    injection h with h
    subst h
    simp [raisedBy, encode, Instr.raw, RawInstr.words, tw]
    left; rfl
  | _ =>
    injection h with h
    subst h
    simp [raisedBy, writesFlags]

/-- What the fetch of a cycle leaves (R178), as one record update. -/
theorem fetchedState_eq (s : State) :
    fetchedState s = if isTwoWord (readWord s.mem s.pc) = true then
        { takeTurn s with
          pc := s.pc + 2, ir := readWord s.mem s.pc, adr := readWord s.mem (s.pc + 1) }
      else { takeTurn s with pc := s.pc + 1, ir := readWord s.mem s.pc } := by
  unfold fetchedState
  cases h : isTwoWord (readWord s.mem s.pc)
  · rw [fetchInstr_one (s := takeTurn s) h]
    rfl
  · rw [fetchInstr_two (s := takeTurn s) h]
    rfl

/-- The instruction of a cycle is what the words at `pc` decode to. -/
theorem fetched_eq (s : State) :
    fetched s = if isTwoWord (readWord s.mem s.pc) = true then
        decode (readWord s.mem s.pc) (readWord s.mem (s.pc + 1))
      else decode (readWord s.mem s.pc) 0 := by
  unfold fetched
  cases h : isTwoWord (readWord s.mem s.pc)
  · rw [fetchInstr_one (s := takeTurn s) h]
    rfl
  · rw [fetchInstr_two (s := takeTurn s) h]
    rfl

/-- The end of a cycle: no label and nothing changed, or the one interrupt taken, under its label. -/
theorem interruptLabel_cases (u : State) :
    (interruptLabel u = none ∧ interruptCheck u = u)
    ∨ ∃ n, interruptLabel u = some (.interrupt n) ∧ interruptCheck u = takeInterrupt n u
        ∧ u.ie = true := by
  unfold interruptLabel interruptCheck
  split
  · cases hn : interruptTaken u with
    | none => left; simp
    | some n => right; exact ⟨n, by simp, by simp, (interruptTaken_bits hn).1⟩
  · left; simp

end Sys2Proof.Machine
end

