-- ==== Sys2Proof/Laws/Flags.lean ====
section
/-!
SUPPORT. The flag computations as propositions (R200 to R203), and the sum and the product as Words.
-/

namespace Sys2Proof.Machine

@[simp] theorem adderCarry_iff (sum : Nat) : adderCarry sum = true ↔ 65535 < sum := decide_eq_true_iff

@[simp] theorem subOvN_iff (A B : Word) : subOvN A B = true ↔ uint A < uint B := decide_eq_true_iff

@[simp] theorem mulOvN_iff (p : Nat) : mulOvN p = true ↔ 65535 < p := decide_eq_true_iff

@[simp] theorem mulOvI_iff (p : Int) : mulOvI p = true ↔ p < -32768 ∨ 32767 < p := by
  simp only [mulOvI, Bool.or_eq_true, decide_eq_true_iff]

@[simp] theorem divOvI_iff (q : Int) : divOvI q = true ↔ 32767 < q := decide_eq_true_iff

/-- Add's result as the sum of the two Words. -/
theorem truncNat_addSum (A B : Word) : truncNat (addSum A B) = A + B := rfl

/-- Sub's result as the difference of the two Words. -/
theorem truncNat_subSum (A B : Word) : truncNat (subSum A B) = A - B := by
  have := A.isLt
  have := B.isLt
  refine BitVec.eq_of_toNat_eq ?_
  simp only [truncNat, subSum, uint, BitVec.toNat_ofNat, BitVec.toNat_not, BitVec.toNat_sub]
  omega

/-- Mul's result as the product of the two Words. -/
theorem truncNat_mulNat (A B : Word) : truncNat (mulNat A B) = A * B := by
  refine BitVec.eq_of_toNat_eq ?_
  simp [mulNat, BitVec.toNat_mul]

/-- Both readings of the product have the same low 16 bits (R204). -/
theorem truncInt_mulInt (A B : Word) : truncInt (mulInt A B) = A * B := by
  rw [truncInt, mulInt, BitVec.ofInt_mul, BitVec.ofInt_toInt, BitVec.ofInt_toInt]

end Sys2Proof.Machine
end

