-- ==== Sys2Proof/Laws/PerInstr.lean ====
section
/-!
SUPPORT. Statements made for every instruction, one lemma per constructor.
-/

namespace Sys2Proof.Laws

/-- The numbers an instruction is encoded with are the well-formed cut of an instruction (R170,
R171), and the words are as many as the cut says. -/
def EncodingFormat.Statement (i : Instr) : Prop :=
  i.raw.wellFormed = true
    ∧ (encode i).length = (if 14 ≤ i.raw.op then 2 else 1)
    ∧ ∃ row ∈ opcodeRows, row.mnemonic = i.mnemonic ∧ row.words = (encode i).length

theorem EncodingFormat.add (d a b : Index) : EncodingFormat.Statement (.add d a b) := by
  have hd := d.isLt
  have ha := a.isLt
  have hb := b.isLt
  refine ⟨?_, rfl, ?_⟩
  · simp [Instr.raw, RawInstr.wellFormed, fieldInRange, secondAsFormat, secondInRange, hd, ha, hb]
  · simp [opcodeRows, Instr.mnemonic, encode, Instr.raw, RawInstr.words]

theorem EncodingFormat.sub (d a b : Index) : EncodingFormat.Statement (.sub d a b) := by
  have hd := d.isLt
  have ha := a.isLt
  have hb := b.isLt
  refine ⟨?_, rfl, ?_⟩
  · simp [Instr.raw, RawInstr.wellFormed, fieldInRange, secondAsFormat, secondInRange, hd, ha, hb]
  · simp [opcodeRows, Instr.mnemonic, encode, Instr.raw, RawInstr.words]

theorem EncodingFormat.mul (d a b : Index) : EncodingFormat.Statement (.mul d a b) := by
  have hd := d.isLt
  have ha := a.isLt
  have hb := b.isLt
  refine ⟨?_, rfl, ?_⟩
  · simp [Instr.raw, RawInstr.wellFormed, fieldInRange, secondAsFormat, secondInRange, hd, ha, hb]
  · simp [opcodeRows, Instr.mnemonic, encode, Instr.raw, RawInstr.words]

theorem EncodingFormat.div (d a b : Index) : EncodingFormat.Statement (.div d a b) := by
  have hd := d.isLt
  have ha := a.isLt
  have hb := b.isLt
  refine ⟨?_, rfl, ?_⟩
  · simp [Instr.raw, RawInstr.wellFormed, fieldInRange, secondAsFormat, secondInRange, hd, ha, hb]
  · simp [opcodeRows, Instr.mnemonic, encode, Instr.raw, RawInstr.words]

theorem EncodingFormat.cmp (d a b : Index) : EncodingFormat.Statement (.cmp d a b) := by
  have hd := d.isLt
  have ha := a.isLt
  have hb := b.isLt
  refine ⟨?_, rfl, ?_⟩
  · simp [Instr.raw, RawInstr.wellFormed, fieldInRange, secondAsFormat, secondInRange, hd, ha, hb]
  · simp [opcodeRows, Instr.mnemonic, encode, Instr.raw, RawInstr.words]

theorem EncodingFormat.trap (d a b : Index) : EncodingFormat.Statement (.trap d a b) := by
  have hd := d.isLt
  have ha := a.isLt
  have hb := b.isLt
  refine ⟨?_, rfl, ?_⟩
  · simp [Instr.raw, RawInstr.wellFormed, fieldInRange, secondAsFormat, secondInRange, hd, ha, hb]
  · simp [opcodeRows, Instr.mnemonic, encode, Instr.raw, RawInstr.words]

theorem EncodingFormat.lea (d a : Index) (disp : Word) : EncodingFormat.Statement (.lea d a disp) := by
  have hd := d.isLt
  have ha := a.isLt
  have hw := disp.isLt
  refine ⟨?_, rfl, ?_⟩
  · simp [Instr.raw, RawInstr.wellFormed, fieldInRange, secondAsFormat, secondInRange, hd, ha]
    omega
  · simp [opcodeRows, Instr.mnemonic, encode, Instr.raw, RawInstr.words]

theorem EncodingFormat.load (d a : Index) (disp : Word) : EncodingFormat.Statement (.load d a disp) := by
  have hd := d.isLt
  have ha := a.isLt
  have hw := disp.isLt
  refine ⟨?_, rfl, ?_⟩
  · simp [Instr.raw, RawInstr.wellFormed, fieldInRange, secondAsFormat, secondInRange, hd, ha]
    omega
  · simp [opcodeRows, Instr.mnemonic, encode, Instr.raw, RawInstr.words]

theorem EncodingFormat.store (d a : Index) (disp : Word) : EncodingFormat.Statement (.store d a disp) := by
  have hd := d.isLt
  have ha := a.isLt
  have hw := disp.isLt
  refine ⟨?_, rfl, ?_⟩
  · simp [Instr.raw, RawInstr.wellFormed, fieldInRange, secondAsFormat, secondInRange, hd, ha]
    omega
  · simp [opcodeRows, Instr.mnemonic, encode, Instr.raw, RawInstr.words]

theorem EncodingFormat.jump (d a : Index) (disp : Word) : EncodingFormat.Statement (.jump d a disp) := by
  have hd := d.isLt
  have ha := a.isLt
  have hw := disp.isLt
  refine ⟨?_, rfl, ?_⟩
  · simp [Instr.raw, RawInstr.wellFormed, fieldInRange, secondAsFormat, secondInRange, hd, ha]
    omega
  · simp [opcodeRows, Instr.mnemonic, encode, Instr.raw, RawInstr.words]

theorem EncodingFormat.jumpc0 (d a : Index) (disp : Word) : EncodingFormat.Statement (.jumpc0 d a disp) := by
  have hd := d.isLt
  have ha := a.isLt
  have hw := disp.isLt
  refine ⟨?_, rfl, ?_⟩
  · simp [Instr.raw, RawInstr.wellFormed, fieldInRange, secondAsFormat, secondInRange, hd, ha]
    omega
  · simp [opcodeRows, Instr.mnemonic, encode, Instr.raw, RawInstr.words]

theorem EncodingFormat.jumpc1 (d a : Index) (disp : Word) : EncodingFormat.Statement (.jumpc1 d a disp) := by
  have hd := d.isLt
  have ha := a.isLt
  have hw := disp.isLt
  refine ⟨?_, rfl, ?_⟩
  · simp [Instr.raw, RawInstr.wellFormed, fieldInRange, secondAsFormat, secondInRange, hd, ha]
    omega
  · simp [opcodeRows, Instr.mnemonic, encode, Instr.raw, RawInstr.words]

theorem EncodingFormat.jal (d a : Index) (disp : Word) : EncodingFormat.Statement (.jal d a disp) := by
  have hd := d.isLt
  have ha := a.isLt
  have hw := disp.isLt
  refine ⟨?_, rfl, ?_⟩
  · simp [Instr.raw, RawInstr.wellFormed, fieldInRange, secondAsFormat, secondInRange, hd, ha]
    omega
  · simp [opcodeRows, Instr.mnemonic, encode, Instr.raw, RawInstr.words]

theorem EncodingFormat.rfi (d a : Index) (disp : Word) : EncodingFormat.Statement (.rfi d a disp) := by
  have hd := d.isLt
  have ha := a.isLt
  have hw := disp.isLt
  refine ⟨?_, rfl, ?_⟩
  · simp [Instr.raw, RawInstr.wellFormed, fieldInRange, secondAsFormat, secondInRange, hd, ha]
    omega
  · simp [opcodeRows, Instr.mnemonic, encode, Instr.raw, RawInstr.words]

theorem EncodingFormat.halt (d a : Index) (disp : Word) : EncodingFormat.Statement (.halt d a disp) := by
  have hd := d.isLt
  have ha := a.isLt
  have hw := disp.isLt
  refine ⟨?_, rfl, ?_⟩
  · simp [Instr.raw, RawInstr.wellFormed, fieldInRange, secondAsFormat, secondInRange, hd, ha]
    omega
  · simp [opcodeRows, Instr.mnemonic, encode, Instr.raw, RawInstr.words]

end Sys2Proof.Laws
end

