-- ==== Sys2Proof/Tests/Slice0.lean ====
section
/-!
SUPPORT. The model's own tests. Expected values are the spec's: 95_test_vectors.md (part numbers and
example ids in the comments) or its encoding tables. Then, for every statement with hypotheses, a
concrete state that meets them.
-/

namespace Sys2Proof.Tests

open Sys2Proof Sys2Proof.Machine

/-! ## Well-formedness: one ill-formed cut for each check -/

theorem test_wellFormed_accepts : RawInstr.wellFormed ⟨0xF, 1, 2, 1, some 5⟩ = true := by decide
theorem test_wellFormed_refuses_op : RawInstr.wellFormed ⟨16, 1, 2, 3, some 0⟩ = false := by decide
theorem test_wellFormed_refuses_d : RawInstr.wellFormed ⟨0, 16, 2, 3, none⟩ = false := by decide
theorem test_wellFormed_refuses_a : RawInstr.wellFormed ⟨0, 1, 16, 3, none⟩ = false := by decide
theorem test_wellFormed_refuses_b : RawInstr.wellFormed ⟨0, 1, 2, 16, none⟩ = false := by decide
theorem test_wellFormed_refuses_missing_second :
    RawInstr.wellFormed ⟨0xE, 1, 2, 3, none⟩ = false := by decide
theorem test_wellFormed_refuses_extra_second :
    RawInstr.wellFormed ⟨0xD, 1, 2, 3, some 0⟩ = false := by decide
theorem test_wellFormed_refuses_wide_second :
    RawInstr.wellFormed ⟨0xE, 1, 2, 3, some 65536⟩ = false := by decide

/-! ## Decoding: words written out from 30_encoding.md sections 1 and 3 -/

theorem test_decode_add : decode 0b0000000100100011 0 = .add 1 2 3 := by decide
theorem test_decode_sub : decode 0b0001000100100011 0 = .sub 1 2 3 := by decide
theorem test_decode_mul : decode 0b0010111100000001 0 = .mul 15 0 1 := by decide
theorem test_decode_div : decode 0b0011000100100011 0 = .div 1 2 3 := by decide
theorem test_decode_cmp : decode 0b0100111100100011 0 = .cmp 15 2 3 := by decide
theorem test_decode_trap : decode 0b1101000100100011 0 = .trap 1 2 3 := by decide
theorem test_decode_lea : decode 0b1111000100100000 0x0020 = .lea 1 2 0x0020 := by decide
theorem test_decode_load : decode 0b1111000100100001 0x0005 = .load 1 2 0x0005 := by decide
theorem test_decode_store : decode 0b1111000100010010 0x0100 = .store 1 1 0x0100 := by decide
theorem test_decode_jump : decode 0b1110011111010000 0x0000 = .jump 7 13 0x0000 := by decide
theorem test_decode_jumpc0 : decode 0b1110010100100001 0x0010 = .jumpc0 5 2 0x0010 := by decide
theorem test_decode_jumpc1 : decode 0b1110010100100010 0x0010 = .jumpc1 5 2 0x0010 := by decide
theorem test_decode_jal : decode 0b1110110111010011 0x0002 = .jal 13 13 0x0002 := by decide
theorem test_decode_rfi : decode 0b1110011110100100 0xBEEF = .rfi 7 10 0xBEEF := by decide
theorem test_decode_halt : decode 0b1110001110110101 0x7777 = .halt 3 11 0x7777 := by decide

/-- Part 2.6: the boundary selections that name no instruction. -/
theorem test_decode_illegal :
    ([(0x5000, 0), (0x5ABC, 0), (0xCFFF, 0), (0xF003, 1), (0xFFFF, 1), (0xE006, 1), (0xE00F, 1)] :
      List (Word × Word)).all (fun w => decode w.1 w.2 == .trap 0 0 0) = true := by decide

/-- S9: re-encoding. -/
theorem test_encode_cmp : encode (.cmp 15 2 3) = [0x4F23] := by decide
theorem test_encode_jal : encodeBytes (.jal 13 13 2) = [0xED, 0xD3, 0x00, 0x02] := by decide
theorem test_decodeBytes_truncated_first :
    decodeBytes [0x01] = .rejected .truncatedFirstWord := by decide
theorem test_decodeBytes_truncated_second :
    decodeBytes [0xE0, 0x00, 0x12] = .rejected .truncatedSecondWord := by decide
theorem test_decodeTableWord_one : decodeTableWord 16 0x0123 = some (.add 1 2 3) := by decide
theorem test_decodeTableWord_two : decodeTableWord 32 0x0005F121 = some (.load 1 2 5) := by decide
theorem test_decodeTableWord_short : decodeTableWord 16 0xF121 = some (.load 1 2 0) := by decide

/-! ## One step: small states -/

/-- Put a Word into a register for a test, `R15` too. -/
def put (i : Index) (v : Word) (s : State) : State := s.setRegs (s.regs.set i v)

/-- Put a Word into a cell. -/
def cell (addr v : Word) (s : State) : State := s.setMem (writeWord s.mem addr v)

/-- A fresh core, Executing, with two words at `addr` and `pc` there. -/
def at2 (addr w1 w2 : Word) : State :=
  ((cell (addr + 1) w2 (cell addr w1 State.reset)).setPc addr).setState .executing

/-- A fresh core, Executing, with one word at `addr` and `pc` there. -/
def at1 (addr w : Word) : State := ((cell addr w State.reset).setPc addr).setState .executing

/-- The state a step leaves. -/
def after (s : State) : State :=
  match step s with
  | .next t => t
  | .fault _ => s
  | .refused _ => s

/-- The launch registers of a test. -/
def launched (vect mask : Word) (ie sys : Bool) (s : State) : State :=
  (((s.setVect vect).setMask mask).setIe ie).setSys sys

/-- S3. -/
theorem test_add_ovI :
    let t := after (put 2 0x7FFF (put 3 0x0001 (at1 0 0x0123)))
    readReg t 1 = 0x8000 ∧ readReg t 15 = 0x0020 ∧ t.pc = 1 ∧ t.ir = 0x0123 := by decide
/-- Part 2.1: the sum for `R15` is dropped, `cy` cleared, `ovI` set. -/
theorem test_add_to_cc :
    readReg (after (put 1 0x7FFF (put 2 0x0001 (put 15 0x00A0 (at1 0 0x0F12))))) 15 = 0x0020 := by
  decide
/-- Part 2.2. -/
theorem test_sub_borrow :
    let t := after (put 2 0x0003 (put 3 0x0005 (at1 0 0x1123)))
    readReg t 1 = 0xFFFE ∧ readReg t 15 = 0x0040 := by decide
theorem test_sub_min :
    let t := after (put 2 0x8000 (put 3 0x0001 (at1 0 0x1123)))
    readReg t 1 = 0x7FFF ∧ readReg t 15 = 0x00A0 := by decide
/-- Part 2.3. -/
theorem test_mul_signs :
    let t := after (put 2 0xFFFF (put 3 0xFFFF (put 15 0x0080 (at1 0 0x2123))))
    readReg t 1 = 0x0001 ∧ readReg t 15 = 0x00C0 := by decide
theorem test_mul_neither_fits :
    let t := after (put 2 0xFF00 (put 3 0x0100 (put 15 0x0080 (at1 0 0x2123))))
    readReg t 1 = 0x0000 ∧ readReg t 15 = 0x00E0 := by decide
/-- Part 2.4. -/
theorem test_div_toward_zero :
    let t := after (put 2 0xFFF9 (put 3 0x0002 (put 15 0x00E0 (at1 0 0x3123))))
    readReg t 1 = 0xFFFD ∧ readReg t 15 = 0x0080 := by decide
/-- S4. -/
theorem test_div_by_zero :
    let t := after (put 1 0xBEEF (put 2 7 (put 15 0x00E5 (at1 0 0x3123))))
    readReg t 1 = 0xBEEF ∧ readReg t 15 = 0x00E5 ∧ t.rpc = 1 ∧ t.pc = 0 ∧ t.sys = true := by decide
/-- Part 2.5. -/
theorem test_cmp_mixed :
    readReg (after (put 2 0xFFFF (put 3 0x0001 (put 15 0x07FF (at1 0 0x4023))))) 15 = 0x07F2 := by
  decide
theorem test_cmp_equal :
    readReg (after (put 2 5 (put 3 5 (put 15 0x07FF (at1 0 0x4F23))))) 15 = 0x07E4 := by decide
/-- S5. -/
theorem test_trap :
    let t := after (launched 0x0200 0 true false (at1 0x0010 0xD123))
    t.pc = 0x0200 ∧ t.rpc = 0x0011 ∧ t.rstat = 0x0002 ∧ t.sys = true ∧ t.ie = false := by decide
/-- Part 2.6. -/
theorem test_illegal_two_words :
    let t := after (launched 0x0200 0 true true (at2 0x0010 0xF007 0x1234))
    t.pc = 0x0200 ∧ t.rpc = 0x0012 ∧ t.rstat = 0x0003 ∧ t.adr = 0x1234 ∧ t.ir = 0xF007 := by decide
/-- Part 2.7. -/
theorem test_lea_wraps :
    let t := after (put 2 0xFFF0 (put 15 0x0044 (at2 0 0xF120 0x0020)))
    readReg t 1 = 0x0010 ∧ t.adr = 0x0010 ∧ readReg t 15 = 0x0044 ∧ t.pc = 2 := by decide
theorem test_lea_across_the_top :
    let t := after (at2 0xFFFF 0xF100 0x0007)
    readReg t 1 = 0x0007 ∧ t.pc = 0x0001 ∧ t.adr = 0x0007 := by decide
theorem test_load :
    let t := after (put 2 0x0010 (cell 0x0015 0xCAFE (at2 0 0xF121 0x0005)))
    readReg t 1 = 0xCAFE ∧ t.adr = 0x0015 ∧ t.dat = 0xCAFE := by decide
theorem test_load_to_cc :
    let t := after (put 15 0x0044 (cell 0x0005 0xFFFF (at2 0 0xFF01 0x0005)))
    readReg t 15 = 0x0044 ∧ t.dat = 0xFFFF := by decide
theorem test_store :
    let t := after (put 1 0x1111 (put 2 0xFFF8 (at2 0 0xF122 0x0010)))
    readWord t.mem 0x0008 = 0x1111 ∧ t.adr = 0x0008 ∧ t.dat = 0x1111 := by decide
theorem test_store_over_itself :
    let t := after (put 1 0xABCD (at2 0 0xF102 0x0001))
    readWord t.mem 0x0001 = 0xABCD ∧ t.adr = 0x0001 ∧ t.pc = 2 := by decide
/-- Part 2.8. -/
theorem test_jump :
    let t := after (put 2 0xFFF8 (at2 0x0020 0xE020 0x0010))
    t.pc = 0x0008 ∧ t.adr = 0x0008 := by decide
theorem test_jumpc0_not_taken :
    let t := after (put 2 0x0100 (put 15 0x0020 (at2 0 0xE521 0x0010)))
    t.pc = 0x0002 ∧ t.adr = 0x0110 := by decide
theorem test_jumpc0_unwritten_bit : (after (put 15 4 (at2 0 0xEB01 0x0050))).pc = 0x0050 := by decide
theorem test_jumpc1_taken :
    let t := after (put 2 0x0100 (put 15 0x0020 (at2 0 0xE522 0x0010)))
    t.pc = 0x0110 ∧ t.adr = 0x0110 := by decide
theorem test_jumpc1_not_taken : (after (at2 0 0xE202 0x0050)).pc = 0x0002 := by decide
theorem test_jal_through_its_own_index :
    let t := after (put 13 0x0040 (at2 0 0xEDD3 0x0002))
    readReg t 13 = 0x0002 ∧ t.pc = 0x0042 ∧ t.adr = 0x0042 := by decide
theorem test_jal_to_cc :
    let t := after (at2 0 0xEF03 0x0030)
    readReg t 15 = 0x0000 ∧ t.pc = 0x0030 := by decide
/-- Part 2.9. -/
theorem test_rfi :
    let t := after (launched 0 0 false true (((at2 0x0200 0xE004 0).setRpc 0x0123).setRstat 0x0003))
    t.pc = 0x0123 ∧ t.ie = true ∧ t.sys = false ∧ t.rpc = 0x0123 ∧ t.rstat = 0x0003 := by decide
theorem test_rfi_ignores_rstat0 :
    let t := after (launched 0 0 true true (((at2 0x0200 0xE7A4 0xBEEF).setRpc 0x0123).setRstat 0xFFFD))
    t.pc = 0x0123 ∧ t.ie = false ∧ t.sys = false ∧ t.adr = 0xBEEF := by decide
theorem test_halt_skips_the_check :
    let t := after (launched 0 1 true false ((at2 0x0013 0xE3B5 0x7777).setReq 1))
    t.state = .halt ∧ t.pc = 0x0015 ∧ t.adr = 0x7777 ∧ t.req = 1 ∧ t.sys = false := by decide
/-- Part 2.10. -/
theorem test_interrupt_priority :
    let t := after (launched 0x0100 0xFFF0 true false
      ((put 2 1 (put 3 1 (at1 0 0x0123))).setReq 0x8014))
    readReg t 1 = 2 ∧ t.req = 0x8004 ∧ t.rpc = 1 ∧ t.pc = 0x0100 ∧ t.rstat = 2 := by decide
theorem test_interrupt_masked :
    let t := after (launched 0x0100 0x0007 true false ((at1 0 0x0123).setReq 0x0008))
    t.pc = 1 ∧ t.req = 0x0008 ∧ t.ie = true := by decide
theorem test_trap_beats_interrupt :
    let t := after (launched 0x0100 1 true false ((at1 0 0xD123).setReq 1))
    t.pc = 0x0100 ∧ t.rpc = 1 ∧ t.req = 1 := by decide
/-- P4, cycle 5: Rfi, then the pending request in the same cycle. -/
theorem test_back_to_back :
    let t := after (launched 0x0007 0x0005 false true
      ((((at2 0x0008 0xE004 0).setReq 6).setRpc 4).setRstat 2))
    t.req = 2 ∧ t.rpc = 4 ∧ t.rstat = 2 ∧ t.pc = 7 ∧ t.sys = true := by decide

/-- S1, S10: the loader. -/
theorem test_load_image :
    let t := (hostMove (.load [0x00, 0x01, 0x12, 0x34, 0x56]) State.reset).1
    readWord t.mem 0 = 0x0001 ∧ readWord t.mem 1 = 0x1234 ∧ readWord t.mem 2 = 0 ∧ t.state = .ready := by
  decide
theorem test_load_twice_keeps_memory_canonical :
    (hostMove (.load [0x00, 0x00]) (hostMove (.load [0x00, 0x01]) State.reset).1).1.mem = [] := by decide
/-- S8. -/
theorem test_load_too_large (image : List Byte) (h : image.length = 131074) :
    hostMove (.load image) State.reset = (State.reset, .sizeExceeded) := by
  have hw : Config.memWords < imageWords image := by
    rw [imageWords, h]
    decide
  rw [hostMove, hostLoad, if_pos (show betweenRuns State.reset = true from rfl), if_pos hw]

/-- From reset, two turns of the host and one of the core run a program's first instruction. -/
theorem test_launch_from_reset :
    let t := after (after (after (State.reset.setSchedule
      [.host (.load [0xF1, 0x00, 0x00, 0x07]), .host .run, .core])))
    readReg t 1 = 7 ∧ t.pc = 2 ∧ t.state = .executing ∧ t.schedule = [] := by decide
theorem test_withFetchWord_runs :
    let t := after (State.reset.withFetchWord 32 0x0007F100)
    readReg t 1 = 7 ∧ t.pc = 2 := by decide
theorem test_reset_memory_is_canonical : State.reset.mem.wf = true := by decide
theorem test_cause_numbers :
    [Cause.illegalInstruction, .trapInstruction, .divideByZero, .interrupt 15].map Cause.number
      = [0, 1, 2, 31] := by decide

/-! ## Witnesses: for each statement with hypotheses, a state and operands that meet them -/

/-- Clause 3 of `DecoderIsTheTableOfR185` and `IllegalWordEntersHandler`, at the ends of every range;
the assigned words beside them are no such words. -/
theorem witness_selectsNothing :
    (∀ w ∈ ([0x5000, 0xCFFF, 0xF003, 0xFFFF, 0xE006, 0xEFFF] : List Word), SelectsNothing w)
    ∧ (∀ w ∈ ([0x4FFF, 0xD000, 0xF002, 0xE005] : List Word), ¬ SelectsNothing w) := by
  simp [SelectsNothing]
/-- Clause 4 of `DecoderIsTheTableOfR185`: the RRR nibbles. -/
theorem witness_rrr_nibbles :
    ∀ w ∈ ([0x0000, 0x4FFF, 0xD000, 0xDFFF] : List Word),
      uint w / 4096 ∈ [0x0, 0x1, 0x2, 0x3, 0x4, 0xD] := by simp
/-- `OpcodeRowsSelectTheirInstruction`: a word for a row, and words that match none. -/
theorem witness_opcode_rows :
    (∃ row ∈ opcodeRows, (0x0123 : Word) &&& row.mask = row.pattern)
    ∧ (∀ w ∈ ([0x5000, 0xCFFF, 0xF003, 0xE006] : List Word),
        ∀ row ∈ opcodeRows, w &&& row.mask ≠ row.pattern) := by simp [opcodeRows]

theorem witness_StepRunsDecodedInstruction_one :
    let s := at1 0xFFFF 0x0123
    CoreSteps s ∧ decodeBytes (bytesOfWord (readWord s.mem s.pc)
      ++ bytesOfWord (readWord s.mem (s.pc + 1))) = .instr (.add 1 2 3) [0, 0] :=
  ⟨⟨rfl, rfl⟩, by decide⟩
theorem witness_StepRunsDecodedInstruction_two :
    let s := at2 0xFFFF 0xF100 0x0007
    CoreSteps s ∧ decodeBytes (bytesOfWord (readWord s.mem s.pc)
      ++ bytesOfWord (readWord s.mem (s.pc + 1))) = .instr (.lea 1 0 7) [] :=
  ⟨⟨rfl, rfl⟩, by decide⟩

/-- A fresh core with one move of the environment to come, in a processor state of R136. -/
def hosted (p : ProcState) (m : HostMove) : State :=
  (State.reset.setState p).setSchedule [.host m]

theorem witness_HostTurnIsOneWholeMove :
    (hosted .ready .run).schedule = .host .run :: [] := rfl
theorem witness_CoreIsIdleOutsideExecuting :
    nextTurn State.reset = .core ∧ State.reset.state ≠ .executing := by decide

/-- `ScratchRegistersOfACycle`: a one-word instruction, an illegal two-word one, a `dat` that
changes. -/
theorem witness_ScratchRegistersOfACycle :
    (∃ s t, CoreSteps s ∧ step s = .next t ∧ isTwoWord (readWord s.mem s.pc) = false)
    ∧ (∃ s t, CoreSteps s ∧ step s = .next t ∧ SelectsNothing (readWord s.mem s.pc)
        ∧ isTwoWord (readWord s.mem s.pc) = true)
    ∧ (∃ s t, CoreSteps s ∧ step s = .next t ∧ t.dat ≠ s.dat) :=
  ⟨⟨at1 0 0x0123, after (at1 0 0x0123), ⟨rfl, rfl⟩, rfl, by decide⟩,
   ⟨at2 0 0xF003 1, after (at2 0 0xF003 1), ⟨rfl, rfl⟩, rfl, by unfold SelectsNothing; decide⟩,
   ⟨at2 0 0xF101 0, after (at2 0 0xF101 0), ⟨rfl, rfl⟩, rfl, by decide⟩⟩
theorem witness_FlagWriteTouchesOneBit_several :
    ∀ p ∈ [(CCFlag.ovI, true), (CCFlag.cy, false)], (6 : Index) ≠ p.1.bit := by decide
theorem witness_ConditionCodesChangeOnlyByTheirWriters :
    (∃ s t, step s = .next t ∧ readReg t 15 ≠ readReg s 15 ∧ CoreSteps s)
    ∧ (∃ s t, step s = .next t ∧ readReg t 15 ≠ readReg s 15 ∧ nextTurn s = .host .reset) :=
  ⟨⟨at1 0 0x4000, after (at1 0 0x4000), rfl, by decide, rfl, rfl⟩,
   ⟨put 15 4 (hosted .halt .reset), after (put 15 4 (hosted .halt .reset)), rfl, by decide, rfl⟩⟩

theorem witness_DivResultFlagsFrame :
    (∃ s : State, ∃ a b : Index, readReg s b ≠ 0
      ∧ 0 < sint (readReg s a) * sint (readReg s b))
    ∧ (∃ s : State, ∃ a b : Index, readReg s b ≠ 0
      ∧ sint (readReg s a) * sint (readReg s b) < 0) :=
  ⟨⟨put 2 7 (put 3 2 State.reset), 2, 3, by decide⟩,
   ⟨put 2 0xFFF9 (put 3 2 State.reset), 2, 3, by decide⟩⟩
theorem witness_DivByZeroEntersHandler : readReg State.reset 2 = 0 := by decide
theorem witness_IllegalWordEntersHandler :
    (CoreSteps (at1 0 0xCFFF) ∧ SelectsNothing (readWord (at1 0 0xCFFF).mem (at1 0 0xCFFF).pc))
    ∧ (CoreSteps (at2 0 0xE006 1)
      ∧ SelectsNothing (readWord (at2 0 0xE006 1).mem (at2 0 0xE006 1).pc)) := by
  refine ⟨⟨⟨rfl, rfl⟩, ?_⟩, ⟨⟨rfl, rfl⟩, ?_⟩⟩ <;> unfold SelectsNothing <;> decide

theorem witness_StoreResultFrame : (cell 0xFFFF 0x1234 State.reset).mem.wf = true := by decide
theorem witness_StoreSeenByTheNextFetch :
    State.reset.mem.wf = true ∧ effectiveAddress State.reset 2 0 = State.reset.pc := by decide
theorem witness_StoreSeenAsTheNextSecondWord :
    let s := cell 0xFFFF 0xE000 (State.reset.setPc 0xFFFF)
    s.mem.wf = true ∧ effectiveAddress s 2 0 = s.pc + 1
    ∧ isTwoWord (readWord s.mem s.pc) = true := by decide
theorem witness_CanonicalMemoryIsWhatItReadsAs :
    ∃ m n : Memory, m.wf = true ∧ n.wf = true ∧ ∀ addr : Word, readWord m addr = readWord n addr :=
  ⟨writeWord [] 3 5, writeWord (writeWord [] 3 7) 3 5, by decide, by decide, fun _ => rfl⟩
/-- `MemoryChangesOnlyByStoreLoadReset`: a change by each of the three. -/
theorem witness_MemoryChangesOnlyByStoreLoadReset :
    (∃ s t, s.mem.wf = true ∧ step s = .next t
      ∧ readWord t.mem 0xFFFF ≠ readWord s.mem 0xFFFF ∧ CoreSteps s)
    ∧ (∃ s t, s.mem.wf = true ∧ step s = .next t ∧ readWord t.mem 0 ≠ readWord s.mem 0
      ∧ nextTurn s = .host (.load [0, 1]))
    ∧ (∃ s t, s.mem.wf = true ∧ step s = .next t ∧ readWord t.mem 4 ≠ readWord s.mem 4
      ∧ nextTurn s = .host .reset) :=
  ⟨⟨put 1 9 (at2 0 0xF102 0xFFFF), after (put 1 9 (at2 0 0xF102 0xFFFF)),
      by decide, rfl, by decide, rfl, rfl⟩,
   ⟨hosted .initialising (.load [0, 1]), after (hosted .initialising (.load [0, 1])),
      by decide, rfl, by decide, rfl⟩,
   ⟨cell 4 9 (hosted .halt .reset), after (cell 4 9 (hosted .halt .reset)),
      by decide, rfl, by decide, rfl⟩⟩

/-- A legal state that is not the reset state. -/
theorem witness_legal : (cell 3 7 (put 15 0x00FF (State.reset.setRstat 3))).Legal :=
  ⟨by decide, by decide, by decide⟩
/-- `JumpsOnUnwrittenBits`, at both ends of the range of `k`. -/
theorem witness_JumpsOnUnwrittenBits :
    State.reset.Legal ∧ 8 ≤ (8 : Index).val ∧ 8 ≤ (15 : Index).val :=
  ⟨⟨by decide, by decide, by decide⟩, by decide, by decide⟩

theorem witness_HaltSkipsTheInterruptCheck :
    let s := launched 0 1 true false ((at2 0 0xE3B5 7).setReq 1)
    CoreSteps s ∧ fetched s = .halt 3 11 7 := ⟨⟨rfl, rfl⟩, by decide⟩
theorem witness_InterruptCheckTakesTheLowest :
    let s := (launched 0 0xFFF0 true false ((at1 0 0).setReq 0x8014))
    s.state = .executing ∧ s.ie = true ∧ bitOf s.req 4 = true ∧ bitOf s.mask 4 = true
    ∧ ∀ m : Index, m < 4 → bitOf s.req m = true → bitOf s.mask m = false := by decide
/-- `InterruptCheckWaits`: each of its three conditions alone, a request pending. -/
theorem witness_InterruptCheckWaits :
    (launched 0 1 false false ((at1 0 0).setReq 1)).ie = false
    ∧ (launched 0 1 true false (State.reset.setReq 1)).state ≠ .executing
    ∧ (∀ k : Index, bitOf (launched 0 2 true false ((at1 0 0).setReq 1)).req k = true →
        bitOf (launched 0 2 true false ((at1 0 0).setReq 1)).mask k = false) := by decide
theorem witness_TrapBeatsInterrupt :
    let s := launched 0x0100 1 true false ((at1 0 0xD123).setReq 1)
    CoreSteps s ∧ raisedBy (fetched s) (fetchedState s) = some .trapInstruction :=
  ⟨⟨rfl, rfl⟩, by decide⟩

/-- A core about to add, with an unmasked request 2 and a masked request 0 pending. -/
def interrupted : State := launched 0x0100 4 true false ((at1 0 0x0123).setReq 5)

theorem witness_RequestsStayLatched :
    CoreSteps interrupted ∧ step interrupted = .next (after interrupted)
    ∧ stepEvent interrupted = some (.interrupt 2) := ⟨⟨rfl, rfl⟩, rfl, by decide⟩
theorem witness_EventIsOneEntry :
    (step interrupted = .next (after interrupted) ∧ stepEvent interrupted = some (.interrupt 2))
    ∧ (step (at1 0 0xD000) = .next (after (at1 0 0xD000))
      ∧ stepEvent (at1 0 0xD000) = some .illegalInstruction) :=
  ⟨⟨rfl, by decide⟩, ⟨rfl, by decide⟩⟩

/-- A launch configuration of a core that is Ready. -/
def configured : State := hosted .ready (.configure (some 7) (some 3) (some true))

/-- `VectIsOneAddressWrittenByTheHost` and `MaskIsWrittenByTheHostOnly`: a change by each writer. -/
theorem witness_launchRegistersChange :
    (step configured = .next (after configured)
      ∧ (after configured).vect ≠ configured.vect ∧ (after configured).mask ≠ configured.mask)
    ∧ (let s := launched 7 3 true true (hosted .halt .reset)
       step s = .next (after s) ∧ (after s).vect ≠ s.vect ∧ (after s).mask ≠ s.mask) :=
  ⟨⟨rfl, by decide⟩, ⟨rfl, by decide⟩⟩
theorem witness_RpcIsWrittenByEntriesOnly :
    (step interrupted = .next (after interrupted) ∧ (after interrupted).rpc ≠ interrupted.rpc)
    ∧ (let s := (hosted .halt .reset).setRpc 5
       step s = .next (after s) ∧ (after s).rpc ≠ s.rpc) :=
  ⟨⟨rfl, by decide⟩, ⟨rfl, by decide⟩⟩
/-- `SupervisorModeOnlyByEntry`: an entry from user mode, and a return from supervisor mode. -/
theorem witness_SupervisorModeOnlyByEntry :
    (step interrupted = .next (after interrupted) ∧ (stepEvent interrupted).isSome = true
      ∧ interrupted.sys = false ∧ (after interrupted).sys = true)
    ∧ (let s := (at2 0 0xE004 0).setSys true
       step s = .next (after s) ∧ s.sys = true ∧ (after s).sys = false) :=
  ⟨⟨rfl, by decide⟩, ⟨rfl, by decide⟩⟩
/-- Two states alike but for the mode, and not the same. -/
theorem witness_ModeRestrictsNothing :
    AlikeButMode interrupted ((interrupted.setSys true).setRstat 1)
    ∧ interrupted ≠ (interrupted.setSys true).setRstat 1 :=
  ⟨⟨rfl, rfl, rfl, rfl, rfl, rfl, rfl, by decide, rfl, rfl, rfl, rfl, rfl, rfl⟩, by decide⟩
theorem witness_InterruptsStayOff :
    let s := (at1 0 0xD123).setReq 1
    InterruptsOff s ∧ step s = .next (after s) ∧ nextTurn s = .core := ⟨⟨rfl, by decide⟩, rfl, rfl⟩
theorem witness_StepKeepsLegal :
    let s := (at1 0 0x4000).setRstat 3
    s.Legal ∧ step s = .next (after s) := ⟨⟨by decide, by decide, by decide⟩, rfl⟩
/-- `ProcessorStateTransitions`: each of the six. -/
theorem witness_ProcessorStateTransitions :
    ([hosted .halt .reset, hosted .initialising (.load []), hosted .ready .run,
      hosted .executing .pause, hosted .executing .cancel, at2 0 0xE005 0].all
        fun s => (after s).state != s.state) = true := by decide
theorem witness_ProcessorStateTransitions_steps :
    step (hosted .ready .run) = .next (after (hosted .ready .run))
    ∧ step (at2 0 0xE005 0) = .next (after (at2 0 0xE005 0)) := ⟨rfl, rfl⟩
theorem witness_HaltIsTerminal :
    let s := hosted .halt .run
    s.state = .halt ∧ nextTurn s ≠ .host .reset := by decide

/-- `LoadPlacesTheImage`: a one-word image, a cell it covers and the first it does not. -/
theorem witness_LoadPlacesTheImage :
    State.reset.mem.wf = true ∧ State.reset.state = .initialising
    ∧ ([0x12, 0x34] : List Byte).length / 2 ≤ 65536
    ∧ uint (0 : Word) < ([0x12, 0x34] : List Byte).length / 2
    ∧ ([0x12, 0x34] : List Byte).length / 2 ≤ uint (1 : Word) := by decide
/-- The largest image that fits, and the smallest that does not. -/
theorem witness_LoadRefusals :
    (∃ image : List Byte, image.length / 2 = 65536)
    ∧ (∃ image : List Byte, 65536 < image.length / 2) ∧ State.reset.state = .initialising
    ∧ (hosted .executing .read).state = .executing ∧ (hosted .halt .read).state = .halt :=
  ⟨⟨List.replicate 131073 0, by rw [List.length_replicate]⟩,
   ⟨List.replicate 131074 0, by rw [List.length_replicate]; decide⟩, rfl, rfl, rfl⟩
/-- The states the clauses of the host's moves speak of (`ConfigureWritesTheLaunchRegisters`,
`RunStartsFromReadyOnly`, `OtherHostMoves`). -/
theorem witness_host_states :
    ∀ p ∈ [ProcState.initialising, .ready, .executing, .halt], (hosted p .read).state = p := by decide

end Sys2Proof.Tests
end

section
/-!
PROOFS. The condition-code interface of R116: the frame of a flag write, and the bits of `R15` that a
list of flag writes leaves alone.
-/

namespace Sys2Proof.Machine

/-! ## The frame of a flag write -/

theorem sameButRegs_setRegs (s : State) (v : Vector Word 16) : SameButRegs s (s.setRegs v) where
  pc := rfl
  ir := rfl
  adr := rfl
  dat := rfl
  mask := rfl
  req := rfl
  rstat := rfl
  rpc := rfl
  vect := rfl
  sys := rfl
  ie := rfl
  state := rfl
  schedule := rfl
  mem _ := rfl

theorem sameButRegs_writeFlag (s : State) (f : CCFlag) (v : Bool) :
    SameButRegs s (writeFlag s f v) :=
  sameButRegs_setRegs s _

/-! ## The bits of `R15` -/

@[simp] theorem readFlag_writeFlag_same (s : State) (f : CCFlag) (v : Bool) :
    readFlag (writeFlag s f v) f = v := by
  rw [readFlag, ccBit_writeFlag, if_pos rfl]

theorem ccBit_writeFlag_of_ne (s : State) {f : CCFlag} (v : Bool) {k : Index} (h : k ≠ f.bit) :
    ccBit (writeFlag s f v) k = ccBit s k := by
  rw [ccBit_writeFlag, if_neg h]

/-- The induction is over the writes with the state general: the first write keeps the bit, and the
rest start from the state it leaves. -/
theorem ccBit_foldl_writeFlag_of_unnamed (writes : List (CCFlag × Bool)) (s : State) {k : Index}
    (unnamed : ∀ p ∈ writes, k ≠ p.1.bit) :
    ccBit (writes.foldl (fun u p => writeFlag u p.1 p.2) s) k = ccBit s k := by
  induction writes generalizing s with
  | nil => rfl
  | cons w ws ih =>
    obtain ⟨hw, hws⟩ := List.forall_mem_cons.mp unnamed
    rw [List.foldl_cons, ih _ hws, ccBit_writeFlag_of_ne s w.2 hw]

/-- Settles O11 (R116): one write from the rules above, a list of writes by induction on the list. -/
theorem flagWriteTouchesOneBit : Obligations.FlagWriteTouchesOneBit := by
  unfold Obligations.FlagWriteTouchesOneBit
  refine ⟨fun s f v => ⟨?reads, ?otherBits, ?otherRegs, ?frame⟩, ?list⟩
  case reads => exact readFlag_writeFlag_same s f v
  case otherBits => exact fun _ hk => ccBit_writeFlag_of_ne s v hk
  case otherRegs => exact fun _ hr => readReg_writeFlag_ne s f v hr
  case frame => exact sameButRegs_writeFlag s f v
  case list => exact fun writes s _ unnamed => ccBit_foldl_writeFlag_of_unnamed writes s unnamed

end Sys2Proof.Machine
end

section
/-!
PROOFS. The decoder as the table of R185: the constructor each selection names, what the decoder and
the encoder make of it, and the words that select none (R182).
-/

namespace Sys2Proof.Machine

/-! ## RRR: the opcode nibble selects (R179) -/

/-- The instruction an RRR opcode nibble selects, its three fields still to come. -/
def rrrOf : Nat → Option (Index → Index → Index → Instr)
  | 0x0 => some .add
  | 0x1 => some .sub
  | 0x2 => some .mul
  | 0x3 => some .div
  | 0x4 => some .cmp
  | 0xD => some .trap
  | _ => none

theorem rrrOf_isSome_iff (op : Nat) :
    (rrrOf op).isSome = true ↔ op ∈ [0x0, 0x1, 0x2, 0x3, 0x4, 0xD] := by
  unfold rrrOf
  split <;> simp_all

theorem rrrOf_lt {op : Nat} {mk : Index → Index → Index → Instr} (h : rrrOf op = some mk) :
    op < 16 := by
  have selected := (rrrOf_isSome_iff op).mp (by rw [h]; rfl)
  simp only [List.mem_cons, List.not_mem_nil, or_false] at selected
  omega

/-- An RRR opcode nibble, and the fields in their places: the row of the table. -/
theorem decode_of_rrrOf {w1 : Word} (w2 : Word) {mk : Index → Index → Index → Instr}
    (h : rrrOf (opField w1).val = some mk) :
    decode w1 w2 = mk (dField w1) (aField w1) (bField w1) := by
  generalize hop : (opField w1).val = op at h
  unfold rrrOf at h
  split at h <;> cases h <;> simp only [decode, hop]

theorem encode_of_rrrOf {op : Nat} {mk : Index → Index → Index → Instr} (h : rrrOf op = some mk)
    (d a b : Index) : encode (mk d a b) = [packWord op d a b] := by
  unfold rrrOf at h
  split at h <;> cases h <;> rfl

theorem decode_codeWord_rrr {op : Nat} {mk : Index → Index → Index → Instr}
    (h : rrrOf op = some mk) (d a b : Index) (w2 : Word) :
    decode (codeWord op d a b) w2 = mk d a b := by
  obtain ⟨hop, hd, ha, -⟩ := fields_codeWord op d a b (rrrOf_lt h) b.isLt
  rw [decode_of_rrrOf w2 (by rw [hop]; exact h), hd, ha, bField_codeWord op d a b (rrrOf_lt h)]

/-- The round trip of a word holds because the encoder packs the very fields the decoder cut. -/
theorem encode_decode_of_rrrOf {w1 : Word} (w2 : Word) {mk : Index → Index → Index → Instr}
    (h : rrrOf (opField w1).val = some mk) : encode (decode w1 w2) = [w1] := by
  rw [decode_of_rrrOf w2 h, encode_of_rrrOf h, packWord_fields]

/-! ## RX and EXP: the opcode nibble and the `b` field select (R180, R181) -/

/-- The instruction an opcode nibble and a secondary opcode select, its two fields and its second
word still to come. -/
def twoWordOf : Nat → Nat → Option (Index → Index → Word → Instr)
  | 0xF, 0x0 => some .lea
  | 0xF, 0x1 => some .load
  | 0xF, 0x2 => some .store
  | 0xE, 0x0 => some .jump
  | 0xE, 0x1 => some .jumpc0
  | 0xE, 0x2 => some .jumpc1
  | 0xE, 0x3 => some .jal
  | 0xE, 0x4 => some .rfi
  | 0xE, 0x5 => some .halt
  | _, _ => none

theorem twoWordOf_lt {op b : Nat} {mk : Index → Index → Word → Instr}
    (h : twoWordOf op b = some mk) : op < 16 ∧ b < 16 := by
  unfold twoWordOf at h
  split at h <;> cases h <;> decide

theorem decode_of_twoWordOf {w1 : Word} (w2 : Word) {mk : Index → Index → Word → Instr}
    (h : twoWordOf (opField w1).val (bField w1).val = some mk) :
    decode w1 w2 = mk (dField w1) (aField w1) w2 := by
  generalize hop : (opField w1).val = op at h
  generalize hb : (bField w1).val = b at h
  unfold twoWordOf at h
  split at h <;> cases h <;> simp only [decode, decodeRX, decodeEXP, hop, hb]

theorem decode_codeWord_twoWord {op b : Nat} {mk : Index → Index → Word → Instr}
    (h : twoWordOf op b = some mk) (d a : Index) (w2 : Word) :
    decode (codeWord op d a b) w2 = mk d a w2 := by
  obtain ⟨hop_lt, hb_lt⟩ := twoWordOf_lt h
  obtain ⟨hop, hd, ha, hb⟩ := fields_codeWord op d a b hop_lt hb_lt
  rw [decode_of_twoWordOf w2 (by rw [hop, hb]; exact h), hd, ha]

/-! ## The words that select nothing (R182) -/

theorem decodeRX_of_unassigned {w1 : Word} (w2 : Word) (h : 3 ≤ (bField w1).val) :
    decodeRX w1 w2 = illegalTrap := by
  unfold decodeRX
  split
  case h_4 => rfl
  all_goals omega

theorem decodeEXP_of_unassigned {w1 : Word} (w2 : Word) (h : 6 ≤ (bField w1).val) :
    decodeEXP w1 w2 = illegalTrap := by
  unfold decodeEXP
  split
  case h_7 => rfl
  all_goals omega

theorem decode_of_unassigned_opcode {w1 : Word} (w2 : Word) (lo : 0x5 ≤ (opField w1).val)
    (hi : (opField w1).val ≤ 0xC) : decode w1 w2 = illegalTrap := by
  unfold decode
  split
  case h_9 => rfl
  all_goals omega

/-- One case for each way R182 has for a word to select nothing. -/
theorem decode_of_selectsNothing {w1 : Word} (w2 : Word) (h : SelectsNothing w1) :
    decode w1 w2 = illegalTrap := by
  rw [SelectsNothing, ← opField_val, ← bField_val] at h
  obtain ⟨lo, hi⟩ | ⟨hop, hb⟩ | ⟨hop, hb⟩ := h
  · exact decode_of_unassigned_opcode w2 lo hi
  · simp only [decode, hop, decodeRX_of_unassigned w2 hb]
  · simp only [decode, hop, decodeEXP_of_unassigned w2 hb]

theorem encode_illegalTrap : encode illegalTrap = [0xD000] := by decide

/-- Settles O2 (R185): the rows by the selection each names, the illegal words by the three ways of
R182, the round trip through the fields of the word. -/
theorem decoderIsTheTableOfR185 : Obligations.DecoderIsTheTableOfR185 := by
  unfold Obligations.DecoderIsTheTableOfR185
  refine ⟨fun d a b w2 => ?rrr, fun d a w2 => ?twoWord, fun w1 w2 h => ?illegal,
    fun w w2 h => ?roundTrip⟩
  case rrr =>
    refine ⟨?_, ?_, ?_, ?_, ?_, ?_⟩ <;> exact decode_codeWord_rrr rfl d a b w2
  case twoWord =>
    refine ⟨?_, ?_, ?_, ?_, ?_, ?_, ?_, ?_, ?_⟩ <;> exact decode_codeWord_twoWord rfl d a w2
  case illegal =>
    have decoded := decode_of_selectsNothing w2 h
    exact ⟨decoded, by rw [decoded, encode_illegalTrap]⟩
  case roundTrip =>
    rw [← opField_val, ← rrrOf_isSome_iff, Option.isSome_iff_exists] at h
    obtain ⟨mk, selected⟩ := h
    exact encode_decode_of_rrrOf w2 selected

end Sys2Proof.Machine
end

section
/-!
PROOFS. Lea, Load and Store (R221 to R223): the frames of the updates they are made of, then each
instruction's result and frame. `R15` as a destination needs no case of its own: `readReg_writeReg`
says what the destination port does with it (R114).
-/

namespace Sys2Proof.Machine

/-! ## The frames of the updates -/

theorem SameControl.trans {s t u : State} (h : SameControl s t) (h' : SameControl t u) :
    SameControl s u where
  mask := h'.mask.trans h.mask
  req := h'.req.trans h.req
  rstat := h'.rstat.trans h.rstat
  rpc := h'.rpc.trans h.rpc
  vect := h'.vect.trans h.vect
  sys := h'.sys.trans h.sys
  ie := h'.ie.trans h.ie
  state := h'.state.trans h.state
  schedule := h'.schedule.trans h.schedule

theorem sameControl_writeReg (s : State) (d : Index) (v : Word) :
    SameControl s (writeReg s d v) := by
  constructor <;> simp

theorem sameControl_withAddress (s : State) (a : Index) (disp : Word) :
    SameControl s (withAddress s a disp) := by
  constructor <;> simp

theorem sameControl_setDat (s : State) (v : Word) : SameControl s (s.setDat v) := by
  constructor <;> simp

theorem sameControl_setMem (s : State) (m : Memory) : SameControl s (s.setMem m) := by
  constructor <;> simp

theorem sameMem_of_mem_eq {s t : State} (h : t.mem = s.mem) : SameMem s t :=
  fun _ => by rw [h]

/-- What the instruction did to other items before the destination write does not matter, as long as
it left the register file alone. -/
theorem onlyRegWritten_writeReg {s u : State} (h : u.regs = s.regs) (d : Index) (v : Word) :
    OnlyRegWritten d v s (writeReg u d v) := by
  intro r
  rw [readReg_writeReg, readReg_congr h]
  rfl

/-! ## Memory outside the cell written -/

theorem readByte_writeWord_of_ne {m : Memory} {addr : Word} (v : Word) {a : Nat}
    (hm : m.wf = true) (hi : a ≠ highByteAddr addr) (lo : a ≠ lowByteAddr addr) :
    readByte (writeWord m addr v) a = readByte m a := by
  rw [readByte_writeWord _ _ _ hm, if_neg lo, if_neg hi]

theorem readWord_writeWord_same {m : Memory} (addr v : Word) (hm : m.wf = true) :
    readWord (writeWord m addr v) addr = v := by
  rw [readWord_writeWord _ _ _ hm, if_pos rfl]

/-! ## The three instructions -/

/-- The effective address as R220 writes it. -/
theorem effectiveAddress_eq_truncNat (s : State) (a : Index) (disp : Word) :
    effectiveAddress s a disp = truncNat (uint (readReg s a) + uint disp) := rfl

theorem exec_lea (d a : Index) (disp : Word) (s : State) :
    exec (.lea d a disp) s
      = .next (writeReg (withAddress s a disp) d (effectiveAddress s a disp)) :=
  rfl

theorem exec_load (d a : Index) (disp : Word) (s : State) :
    exec (.load d a disp) s
      = .next (writeReg
          ((withAddress s a disp).setDat (readWord s.mem (effectiveAddress s a disp))) d
          (readWord s.mem (effectiveAddress s a disp))) :=
  rfl

theorem exec_store (d a : Index) (disp : Word) (s : State) :
    exec (.store d a disp) s
      = .next (((withAddress s a disp).setDat (readReg s d)).setMem
          (writeWord s.mem (effectiveAddress s a disp) (readReg s d))) :=
  rfl

/-- Settles O24 (R223): the cell written is read by the memory rules, for which memory has to be
canonical; the register file is not touched, so `d = 15` is a source like any other. -/
theorem storeResultFrame : Obligations.StoreResultFrame := by
  unfold Obligations.StoreResultFrame
  intro d a disp s hm
  refine ⟨decode_codeWord_twoWord rfl d a disp, _, exec_store d a disp s, ?adr,
    effectiveAddress_eq_truncNat s a disp, ?dat, ?cell, ?otherBytes, ?regs, ?pc, ?ir, ?control⟩
  case adr => simp
  case dat => simp
  case cell => exact readWord_writeWord_same _ _ hm
  case otherBytes => exact fun _ hi lo => readByte_writeWord_of_ne _ hm hi lo
  case regs => exact readReg_congr (by simp)
  case pc => simp
  case ir => simp
  case control =>
    exact ((sameControl_withAddress s a disp).trans (sameControl_setDat _ _)).trans
      (sameControl_setMem _ _)

/-- Settles O22 (R221): the address register and the destination receive the effective address. -/
theorem leaResultFrame : Obligations.LeaResultFrame := by
  unfold Obligations.LeaResultFrame
  intro d a disp s
  rw [← effectiveAddress_eq_truncNat]
  refine ⟨decode_codeWord_twoWord rfl d a disp, _, exec_lea d a disp s, ?adr, ?dest, ?pc, ?ir, ?dat,
    ?control, ?mem⟩
  case adr => simp
  case dest => exact onlyRegWritten_writeReg (withAddress_regs s a disp) d _
  case pc => simp
  case ir => simp
  case dat => simp
  case control => exact (sameControl_withAddress s a disp).trans (sameControl_writeReg _ _ _)
  case mem => exact sameMem_of_mem_eq (by simp)

/-- Settles O23 (R222): the read is made before the destination write and does not depend on it. -/
theorem loadResultFrame : Obligations.LoadResultFrame := by
  unfold Obligations.LoadResultFrame
  intro d a disp s
  rw [← effectiveAddress_eq_truncNat]
  refine ⟨decode_codeWord_twoWord rfl d a disp, _, exec_load d a disp s, ?adr, ?dat, ?dest, ?pc, ?ir,
    ?control, ?mem⟩
  case adr => simp
  case dat => simp
  case dest => exact onlyRegWritten_writeReg (by simp) d _
  case pc => simp
  case ir => simp
  case control =>
    exact ((sameControl_withAddress s a disp).trans (sameControl_setDat _ _)).trans
      (sameControl_writeReg _ _ _)
  case mem => exact sameMem_of_mem_eq (by simp)

end Sys2Proof.Machine
end

section
/-!
PROOFS. Encoding: every instruction is one selection of the opcode table with its fields, so the round
trip through bytes, the table's rows and the length of an instruction are each two cases, a one-word
selection (R179) and a two-word one (R180, R181).
-/

namespace Sys2Proof.Machine

/-! ## Instructions as selections -/

theorem rrrOf_le {op : Nat} {mk : Index → Index → Index → Instr} (h : rrrOf op = some mk) :
    op ≤ 13 := by
  have selected := (rrrOf_isSome_iff op).mp (by rw [h]; rfl)
  simp only [List.mem_cons, List.not_mem_nil, or_false] at selected
  omega

theorem le_of_twoWordOf {op b : Nat} {mk : Index → Index → Word → Instr}
    (h : twoWordOf op b = some mk) : 14 ≤ op := by
  unfold twoWordOf at h
  split at h <;> cases h <;> decide

theorem encode_of_twoWordOf {op b : Nat} {mk : Index → Index → Word → Instr}
    (h : twoWordOf op b = some mk) (d a : Index) (disp : Word) :
    encode (mk d a disp) = [packWord op d a b, disp] := by
  unfold twoWordOf at h
  split at h <;> cases h <;> simp [encode, Instr.raw, RawInstr.words]

/-- Each constructor is the selection of its row. -/
theorem instr_cases (i : Instr) :
    (∃ op mk, rrrOf op = some mk ∧ ∃ d a b, i = mk d a b)
      ∨ ∃ op b mk, twoWordOf op b = some mk ∧ ∃ d a disp, i = mk d a disp := by
  cases i with
  | add d a b => exact .inl ⟨0x0, _, rfl, d, a, b, rfl⟩
  | sub d a b => exact .inl ⟨0x1, _, rfl, d, a, b, rfl⟩
  | mul d a b => exact .inl ⟨0x2, _, rfl, d, a, b, rfl⟩
  | div d a b => exact .inl ⟨0x3, _, rfl, d, a, b, rfl⟩
  | cmp d a b => exact .inl ⟨0x4, _, rfl, d, a, b, rfl⟩
  | trap d a b => exact .inl ⟨0xD, _, rfl, d, a, b, rfl⟩
  | lea d a disp => exact .inr ⟨0xF, 0x0, _, rfl, d, a, disp, rfl⟩
  | load d a disp => exact .inr ⟨0xF, 0x1, _, rfl, d, a, disp, rfl⟩
  | store d a disp => exact .inr ⟨0xF, 0x2, _, rfl, d, a, disp, rfl⟩
  | jump d a disp => exact .inr ⟨0xE, 0x0, _, rfl, d, a, disp, rfl⟩
  | jumpc0 k a disp => exact .inr ⟨0xE, 0x1, _, rfl, k, a, disp, rfl⟩
  | jumpc1 k a disp => exact .inr ⟨0xE, 0x2, _, rfl, k, a, disp, rfl⟩
  | jal d a disp => exact .inr ⟨0xE, 0x3, _, rfl, d, a, disp, rfl⟩
  | rfi d a disp => exact .inr ⟨0xE, 0x4, _, rfl, d, a, disp, rfl⟩
  | halt d a disp => exact .inr ⟨0xE, 0x5, _, rfl, d, a, disp, rfl⟩

/-! ## The byte decoder on whole words -/

theorem decodeBytes_oneWord {w : Word} (rest : List Byte) (h : isTwoWord w = false) :
    decodeBytes (bytesOfWord w ++ rest) = .instr (decode w 0) rest := by
  simp [bytesOfWord, decodeBytes, h]

theorem decodeBytes_twoWord {w1 : Word} (w2 : Word) (rest : List Byte) (h : isTwoWord w1 = true) :
    decodeBytes (bytesOfWord w1 ++ (bytesOfWord w2 ++ rest)) = .instr (decode w1 w2) rest := by
  simp [bytesOfWord, decodeBytes, h]

/-- Settles O1: the packed first word carries the selection's fields, so the decoder finds the same
selection again and, by its length, takes exactly the bytes the encoder wrote. -/
theorem decodeOfEncodedBytes : Obligations.DecodeOfEncodedBytes := by
  unfold Obligations.DecodeOfEncodedBytes
  intro i rest
  obtain ⟨op, mk, h, d, a, b, rfl⟩ | ⟨op, b, mk, h, d, a, disp, rfl⟩ := instr_cases i
  · have short : isTwoWord (packWord op d a b) = false := by
      have := rrrOf_le h
      rw [isTwoWord_packWord _ _ _ _ (rrrOf_lt h) b.isLt, decide_eq_false_iff_not]
      omega
    rw [encodeBytes, encode_of_rrrOf h, List.flatMap_singleton, decodeBytes_oneWord rest short,
      packWord_eq_codeWord _ _ _ _ (rrrOf_lt h) b.isLt, decode_codeWord_rrr h]
  · obtain ⟨hop, hb⟩ := twoWordOf_lt h
    have long : isTwoWord (packWord op d a b) = true := by
      rw [isTwoWord_packWord _ _ _ _ hop hb, decide_eq_true_iff]
      exact le_of_twoWordOf h
    rw [encodeBytes, encode_of_twoWordOf h, List.flatMap_cons, List.flatMap_singleton,
      List.append_assoc, decodeBytes_twoWord disp rest long, packWord_eq_codeWord _ _ _ _ hop hb,
      decode_codeWord_twoWord h]

/-! ## The rows of the opcode table -/

/-- A mask of whole nibbles keeps or clears each field. -/
theorem packWord_and (op d a b op' d' a' b' : Nat) :
    packWord op d a b &&& packWord op' d' a' b'
      = packWord (op &&& op') (d &&& d') (a &&& a') (b &&& b') := by
  simp only [packWord, BitVec.ofNat_and]
  rw [← BitVec.and_append, ← BitVec.and_append, ← BitVec.and_append]

theorem index_and_mask (i : Index) : i.val &&& 0xF = i.val := by
  rw [Nat.and_two_pow_sub_one_eq_mod _ 4, Nat.mod_eq_of_lt i.isLt]

/-- What the mask of a one-word row leaves of a word. -/
theorem and_opcode_mask (w : Word) : w &&& 0xF000 = codeWord (opField w) 0 0 0 := by
  conv_lhs => rw [← packWord_fields w, show (0xF000 : Word) = packWord 0xF 0 0 0 by decide,
    packWord_and, index_and_mask, Nat.and_zero, Nat.and_zero, Nat.and_zero]
  exact packWord_eq_codeWord _ 0 0 0 (opField w).isLt (by decide)

/-- What the mask of a two-word row leaves of a word. -/
theorem and_secondary_mask (w : Word) :
    w &&& 0xF00F = codeWord (opField w) 0 0 (bField w) := by
  conv_lhs => rw [← packWord_fields w, show (0xF00F : Word) = packWord 0xF 0 0 0xF by decide,
    packWord_and, index_and_mask, index_and_mask, Nat.and_zero, Nat.and_zero]
  exact packWord_eq_codeWord _ 0 0 _ (opField w).isLt (bField w).isLt

/-- The row of a one-word selection: its mask keeps the opcode nibble. -/
def rrrRow (op : Nat) (mnemonic : String) : OpcodeRow := ⟨mnemonic, codeWord op 0 0 0, 0xF000, 1⟩

/-- The row of a two-word selection: its mask keeps the opcode nibble and the secondary opcode. -/
def twoWordRow (op b : Nat) (mnemonic : String) : OpcodeRow :=
  ⟨mnemonic, codeWord op 0 0 b, 0xF00F, 2⟩

theorem matches_rrrRow_iff (w : Word) {op : Nat} (m : String) (hop : op < 16) :
    w &&& (rrrRow op m).mask = (rrrRow op m).pattern ↔ (opField w).val = op := by
  change w &&& 0xF000 = codeWord op 0 0 0 ↔ _
  rw [and_opcode_mask]
  constructor
  · intro h
    rw [← (fields_codeWord op 0 0 0 hop (by decide)).1, ← h,
      (fields_codeWord _ 0 0 0 (opField w).isLt (by decide)).1]
  · intro h
    rw [h]

theorem matches_twoWordRow_iff (w : Word) {op b : Nat} (m : String) (hop : op < 16) (hb : b < 16) :
    w &&& (twoWordRow op b m).mask = (twoWordRow op b m).pattern
      ↔ (opField w).val = op ∧ (bField w).val = b := by
  change w &&& 0xF00F = codeWord op 0 0 b ↔ _
  rw [and_secondary_mask]
  constructor
  · intro h
    obtain ⟨op_eq, -, -, b_eq⟩ := fields_codeWord op 0 0 b hop hb
    obtain ⟨opw_eq, -, -, bw_eq⟩ := fields_codeWord _ 0 0 _ (opField w).isLt (bField w).isLt
    rw [h] at opw_eq bw_eq
    exact ⟨opw_eq.symm.trans op_eq, bw_eq.symm.trans b_eq⟩
  · rintro ⟨h, h'⟩
    rw [h, h']

theorem rrrRow_mem {op : Nat} {mk : Index → Index → Index → Instr} (h : rrrOf op = some mk)
    (d a b : Index) : rrrRow op (mk d a b).mnemonic ∈ opcodeRows := by
  unfold rrrOf at h
  split at h <;> cases h <;> simp only [Instr.mnemonic] <;> decide

theorem twoWordRow_mem {op b : Nat} {mk : Index → Index → Word → Instr}
    (h : twoWordOf op b = some mk) (d a : Index) (disp : Word) :
    twoWordRow op b (mk d a disp).mnemonic ∈ opcodeRows := by
  unfold twoWordOf at h
  split at h <;> cases h <;> simp only [Instr.mnemonic] <;> decide

/-- Every row of the table is the row of a selection. -/
theorem opcodeRows_cases {row : OpcodeRow} (h : row ∈ opcodeRows) :
    (∃ op mk, rrrOf op = some mk ∧ ∀ d a b, row = rrrRow op (mk d a b).mnemonic)
      ∨ ∃ op b mk, twoWordOf op b = some mk
          ∧ ∀ d a disp, row = twoWordRow op b (mk d a disp).mnemonic := by
  simp only [opcodeRows, List.mem_cons, List.not_mem_nil, or_false] at h
  obtain rfl | rfl | rfl | rfl | rfl | rfl | rfl | rfl | rfl | rfl | rfl | rfl | rfl | rfl | rfl := h
  · exact .inl ⟨0x0, _, rfl, fun _ _ _ => rfl⟩
  · exact .inl ⟨0x1, _, rfl, fun _ _ _ => rfl⟩
  · exact .inl ⟨0x2, _, rfl, fun _ _ _ => rfl⟩
  · exact .inl ⟨0x3, _, rfl, fun _ _ _ => rfl⟩
  · exact .inl ⟨0x4, _, rfl, fun _ _ _ => rfl⟩
  · exact .inl ⟨0xD, _, rfl, fun _ _ _ => rfl⟩
  · exact .inr ⟨0xF, 0x0, _, rfl, fun _ _ _ => rfl⟩
  · exact .inr ⟨0xF, 0x1, _, rfl, fun _ _ _ => rfl⟩
  · exact .inr ⟨0xF, 0x2, _, rfl, fun _ _ _ => rfl⟩
  · exact .inr ⟨0xE, 0x0, _, rfl, fun _ _ _ => rfl⟩
  · exact .inr ⟨0xE, 0x1, _, rfl, fun _ _ _ => rfl⟩
  · exact .inr ⟨0xE, 0x2, _, rfl, fun _ _ _ => rfl⟩
  · exact .inr ⟨0xE, 0x3, _, rfl, fun _ _ _ => rfl⟩
  · exact .inr ⟨0xE, 0x4, _, rfl, fun _ _ _ => rfl⟩
  · exact .inr ⟨0xE, 0x5, _, rfl, fun _ _ _ => rfl⟩

theorem decodeRX_of_no_selection {w1 : Word} (w2 : Word)
    (h : twoWordOf 0xF (bField w1).val = none) : decodeRX w1 w2 = illegalTrap := by
  refine decodeRX_of_unassigned w2 (Nat.le_of_not_lt fun assigned => ?_)
  generalize (bField w1).val = b at h assigned
  interval_cases b <;> cases h

theorem decodeEXP_of_no_selection {w1 : Word} (w2 : Word)
    (h : twoWordOf 0xE (bField w1).val = none) : decodeEXP w1 w2 = illegalTrap := by
  refine decodeEXP_of_unassigned w2 (Nat.le_of_not_lt fun assigned => ?_)
  generalize (bField w1).val = b at h assigned
  interval_cases b <;> cases h

/-- A word that is a selection of neither kind is illegal (R182). -/
theorem decode_of_no_selection {w1 : Word} (w2 : Word) (hr : rrrOf (opField w1).val = none)
    (ht : twoWordOf (opField w1).val (bField w1).val = none) : decode w1 w2 = illegalTrap := by
  generalize hop : (opField w1).val = op at hr ht
  unfold decode
  rw [hop]
  split
  case h_7 => exact decodeEXP_of_no_selection w2 ht
  case h_8 => exact decodeRX_of_no_selection w2 ht
  case h_9 => rfl
  all_goals cases hr

/-- Settles O3: a row's mask keeps exactly the fields its selection reads, so a word matches the row
when it is that selection; a word that matches no row is no selection. -/
theorem opcodeRowsSelectTheirInstruction : Obligations.OpcodeRowsSelectTheirInstruction := by
  unfold Obligations.OpcodeRowsSelectTheirInstruction
  refine ⟨fun row hrow w1 w2 matched => ?row, fun w1 w2 unmatched => ?noRow⟩
  case row =>
    obtain ⟨op, mk, h, hrow⟩ | ⟨op, b, mk, h, hrow⟩ := opcodeRows_cases hrow
    · have op_le := rrrOf_le h
      obtain rfl := hrow (dField w1) (aField w1) (bField w1)
      obtain rfl := (matches_rrrRow_iff w1 _ (rrrOf_lt h)).mp matched
      refine ⟨by rw [decode_of_rrrOf w2 h]; rfl, ?_⟩
      rw [isTwoWord, decide_eq_true_iff]
      exact ⟨fun long => absurd op_le (by omega), fun (two : 1 = 2) => absurd two (by decide)⟩
    · have op_ge := le_of_twoWordOf h
      obtain ⟨hop, hb⟩ := twoWordOf_lt h
      obtain rfl := hrow (dField w1) (aField w1) w2
      obtain ⟨rfl, rfl⟩ := (matches_twoWordRow_iff w1 _ hop hb).mp matched
      refine ⟨by rw [decode_of_twoWordOf w2 h]; rfl, ?_⟩
      rw [isTwoWord, decide_eq_true_iff]
      exact ⟨fun _ => rfl, fun _ => op_ge⟩
  case noRow =>
    refine decode_of_no_selection w2 (Option.eq_none_iff_forall_ne_some.mpr fun mk h => ?_)
      (Option.eq_none_iff_forall_ne_some.mpr fun mk h => ?_)
    · exact unmatched _ (rrrRow_mem h 0 0 0) ((matches_rrrRow_iff w1 _ (rrrOf_lt h)).mpr rfl)
    · obtain ⟨hop, hb⟩ := twoWordOf_lt h
      exact unmatched _ (twoWordRow_mem h 0 0 0)
        ((matches_twoWordRow_iff w1 _ hop hb).mpr ⟨rfl, rfl⟩)

/-- Settles O4: seven fixed words. -/
theorem sampleWordsDecode : Obligations.SampleWordsDecode := by
  unfold Obligations.SampleWordsDecode
  decide

/-! ## The length of an instruction -/

theorem fetchInstr_pc (s : State) :
    (fetchInstr s).2.pc = s.pc + (if isTwoWord (readWord s.mem s.pc) = true then 2 else 1) := by
  cases h : isTwoWord (readWord s.mem s.pc)
  · rw [fetchInstr_one h]
    rfl
  · rw [fetchInstr_two h]
    rfl

/-- Settles O5: the nibble as a number, the two forms of an encoding, the two forms of a fetch. -/
theorem opcodeNibbleDecidesLength : Obligations.OpcodeNibbleDecidesLength := by
  unfold Obligations.OpcodeNibbleDecidesLength
  refine ⟨fun w => ?nibble, fun i => ?encoding, fetchInstr_pc⟩
  case nibble =>
    have : uint w < 65536 := w.isLt
    rw [isTwoWord_iff]
    omega
  case encoding =>
    obtain ⟨op, mk, h, d, a, b, rfl⟩ | ⟨op, b, mk, h, d, a, disp, rfl⟩ := instr_cases i
    · have short : ¬ 14 ≤ op := Nat.not_le.mpr (Nat.lt_succ_of_le (rrrOf_le h))
      simp [encode_of_rrrOf h, isTwoWord_packWord _ _ _ _ (rrrOf_lt h) b.isLt, short]
    · obtain ⟨hop, hb⟩ := twoWordOf_lt h
      simp [encode_of_twoWordOf h, isTwoWord_packWord _ _ _ _ hop hb, le_of_twoWordOf h]

end Sys2Proof.Machine
end

section
/-!
PROOFS. Add, Sub, Mul, Div and Cmp (R200 to R210): what a destination write followed by a group of flag
writes leaves, the flags as statements about the two readings of the operands, then each instruction's
result, flags and frame.
-/

namespace Sys2Proof.Machine

/-! ## The frame of a destination write and of the flag writes -/

theorem SameButRegs.trans {s t u : State} (h : SameButRegs s t) (h' : SameButRegs t u) :
    SameButRegs s u where
  pc := h'.pc.trans h.pc
  ir := h'.ir.trans h.ir
  adr := h'.adr.trans h.adr
  dat := h'.dat.trans h.dat
  mask := h'.mask.trans h.mask
  req := h'.req.trans h.req
  rstat := h'.rstat.trans h.rstat
  rpc := h'.rpc.trans h.rpc
  vect := h'.vect.trans h.vect
  sys := h'.sys.trans h.sys
  ie := h'.ie.trans h.ie
  state := h'.state.trans h.state
  schedule := h'.schedule.trans h.schedule
  mem addr := (h'.mem addr).trans (h.mem addr)

theorem sameButRegs_writeReg (s : State) (d : Index) (v : Word) :
    SameButRegs s (writeReg s d v) := by
  constructor <;> simp

theorem sameButRegs_writeAdderFlags (s : State) (x y z : Bool) :
    SameButRegs s (writeAdderFlags s x y z) :=
  ((sameButRegs_writeFlag s .ovI x).trans (sameButRegs_writeFlag _ .ovN y)).trans
    (sameButRegs_writeFlag _ .cy z)

theorem sameButRegs_writeOverflowFlags (s : State) (x y : Bool) :
    SameButRegs s (writeOverflowFlags s x y) :=
  (sameButRegs_writeFlag s .ovI x).trans (sameButRegs_writeFlag _ .ovN y)

theorem sameButRegs_writeCompareFlags (s : State) (A B : Word) :
    SameButRegs s (writeCompareFlags s A B) := by
  constructor <;> simp

/-! ## The registers after a destination write and the flag writes -/

/-- Outside `R15` the destination test of `writeReg` is the plain one. -/
theorem readReg_writeReg_beside_cc (s : State) (d : Index) (v : Word) {r : Index} (hr : r ≠ 15) :
    readReg (writeReg s d v) r = if r = d then v else readReg s r := by
  rw [readReg_writeReg]
  refine if_congr (and_iff_left_of_imp ?_) rfl rfl
  rintro rfl
  exact hr

theorem onlyRegWritten_writeAdderFlags (s : State) (d : Index) (v : Word) (x y z : Bool) :
    OnlyRegWrittenBesideFlags d v s (writeAdderFlags (writeReg s d v) x y z) := fun r hr => by
  rw [readReg_writeAdderFlags _ _ _ _ hr, readReg_writeReg_beside_cc s d v hr]

theorem onlyRegWritten_writeOverflowFlags (s : State) (d : Index) (v : Word) (x y : Bool) :
    OnlyRegWrittenBesideFlags d v s (writeOverflowFlags (writeReg s d v) x y) := fun r hr => by
  rw [readReg_writeOverflowFlags _ _ _ hr, readReg_writeReg_beside_cc s d v hr]

theorem sameCCBut_writeAdderFlags (s : State) (d : Index) (v : Word) (x y z : Bool) :
    SameCCBut [5, 6, 7] s (writeAdderFlags (writeReg s d v) x y z) := fun k hk => by
  simp only [List.mem_cons, List.not_mem_nil, or_false, not_or] at hk
  obtain ⟨h5, h6, h7⟩ := hk
  rw [ccBit_writeAdderFlags, if_neg h7, if_neg h6, if_neg h5, ccBit_writeReg]

theorem sameCCBut_writeOverflowFlags (s : State) (d : Index) (v : Word) (x y : Bool) :
    SameCCBut [5, 6] s (writeOverflowFlags (writeReg s d v) x y) := fun k hk => by
  simp only [List.mem_cons, List.not_mem_nil, or_false, not_or] at hk
  obtain ⟨h5, h6⟩ := hk
  rw [ccBit_writeOverflowFlags, if_neg h6, if_neg h5, ccBit_writeReg]

/-! ## The two readings of a Word (R105) -/

theorem uint_lt (w : Word) : uint w < 65536 := w.isLt

theorem sint_eq (w : Word) :
    sint w = if uint w < 32768 then (uint w : Int) else (uint w : Int) - 65536 := by
  rw [sint, BitVec.toInt_eq_toNat_cond]
  refine if_congr ?_ rfl rfl
  change 2 * uint w < 65536 ↔ uint w < 32768
  omega

theorem msb_iff (w : Word) : w.msb = true ↔ 32768 ≤ uint w := by
  rw [BitVec.msb_eq_decide, decide_eq_true_iff]

theorem msb_eq_msb_iff (v w : Word) : v.msb = w.msb ↔ (32768 ≤ uint v ↔ 32768 ≤ uint w) := by
  rw [Bool.eq_iff_iff, msb_iff, msb_iff]

theorem uint_add (A B : Word) : uint (A + B) = (uint A + uint B) % 65536 := BitVec.toNat_add A B

theorem uint_sub (A B : Word) : uint (A - B) = (65536 - uint B + uint A) % 65536 :=
  BitVec.toNat_sub A B

/-! ## The flags by what fits (R200 to R203) -/

/-- Two operands of one sign and a sum of the other: the sum left the range of the integer reading. -/
theorem addOvI_iff (A B : Word) :
    addOvI A B (A + B) = true ↔ ¬ FitsInteger (sint A + sint B) := by
  have := uint_lt A
  have := uint_lt B
  rw [addOvI, Bool.and_eq_true, beq_iff_eq, bne_iff_ne, ne_eq, msb_eq_msb_iff, msb_eq_msb_iff,
    uint_add, FitsInteger, sint_eq, sint_eq]
  split <;> split <;> omega

theorem subOvI_iff (A B : Word) :
    subOvI A B (A - B) = true ↔ ¬ FitsInteger (sint A - sint B) := by
  have := uint_lt A
  have := uint_lt B
  rw [subOvI, Bool.and_eq_true, bne_iff_ne, bne_iff_ne, ne_eq, ne_eq, msb_eq_msb_iff,
    msb_eq_msb_iff, uint_sub, FitsInteger, sint_eq, sint_eq]
  split <;> split <;> omega

/-- The adder computes `A + ~B + 1`; its carry is the absence of a borrow (D11). -/
theorem subCarry_iff (A B : Word) : adderCarry (subSum A B) = true ↔ uint B ≤ uint A := by
  have := uint_lt A
  have := uint_lt B
  have not_B : uint (~~~B) = 65535 - uint B := BitVec.toNat_not
  rw [adderCarry_iff, subSum, not_B]
  omega

theorem mulOvI_mulInt_iff (A B : Word) :
    mulOvI (mulInt A B) = true ↔ ¬ FitsInteger (sint A * sint B) := by
  rw [mulOvI_iff, FitsInteger, mulInt]
  omega

/-- Sub's result as the natural difference modulo 65536. -/
theorem truncInt_uint_sub (A B : Word) : truncInt ((uint A : Int) - (uint B : Int)) = A - B := by
  refine BitVec.eq_of_toNat_eq ?_
  simp only [truncInt, uint, BitVec.toNat_ofInt, BitVec.toNat_sub]
  omega

/-! ## Add, Sub, Mul -/

theorem exec_add (d a b : Index) (s : State) :
    exec (.add d a b) s
      = .next (writeAdderFlags (writeReg s d (readReg s a + readReg s b))
          (addOvI (readReg s a) (readReg s b) (readReg s a + readReg s b))
          (adderCarry (addSum (readReg s a) (readReg s b)))
          (adderCarry (addSum (readReg s a) (readReg s b)))) :=
  rfl

theorem exec_sub (d a b : Index) (s : State) :
    exec (.sub d a b) s
      = .next (writeAdderFlags (writeReg s d (readReg s a - readReg s b))
          (subOvI (readReg s a) (readReg s b) (readReg s a - readReg s b))
          (subOvN (readReg s a) (readReg s b))
          (adderCarry (subSum (readReg s a) (readReg s b)))) := by
  rw [← truncNat_subSum]
  rfl

theorem exec_mul (d a b : Index) (s : State) :
    exec (.mul d a b) s
      = .next (writeOverflowFlags (writeReg s d (readReg s a * readReg s b))
          (mulOvI (mulInt (readReg s a) (readReg s b)))
          (mulOvN (mulNat (readReg s a) (readReg s b)))) := by
  rw [← truncNat_mulNat]
  rfl

/-- Settles O13 (R200): the adder's carry is both natural flags; a destination of 15 needs no case of
its own, since nothing is claimed of `R15` but its flags. -/
theorem addResultFlagsFrame : Obligations.AddResultFlagsFrame := by
  unfold Obligations.AddResultFlagsFrame
  intro d a b s
  refine ⟨_, exec_add d a b s, onlyRegWritten_writeAdderFlags s d _ _ _ _, ?ovI, ?ovN, ?cy,
    sameCCBut_writeAdderFlags s d _ _ _ _,
    (sameButRegs_writeReg s d _).trans (sameButRegs_writeAdderFlags _ _ _ _)⟩
  case ovI => rw [ccBit_writeAdderFlags]; exact addOvI_iff _ _
  case ovN => rw [ccBit_writeAdderFlags]; exact adderCarry_iff _
  case cy => rw [ccBit_writeAdderFlags]; exact adderCarry_iff _

/-- Settles O14 (R201). -/
theorem subResultFlagsFrame : Obligations.SubResultFlagsFrame := by
  unfold Obligations.SubResultFlagsFrame
  intro d a b s
  rw [truncInt_uint_sub]
  refine ⟨_, exec_sub d a b s, onlyRegWritten_writeAdderFlags s d _ _ _ _, ?ovI, ?ovN, ?cy,
    sameCCBut_writeAdderFlags s d _ _ _ _,
    (sameButRegs_writeReg s d _).trans (sameButRegs_writeAdderFlags _ _ _ _)⟩
  case ovI => rw [ccBit_writeAdderFlags]; exact subOvI_iff _ _
  case ovN => rw [ccBit_writeAdderFlags]; exact subOvN_iff _ _
  case cy => rw [ccBit_writeAdderFlags]; exact subCarry_iff _ _

/-- Settles O15 (R202, R204): both readings of the product are the product of the Words. -/
theorem mulResultFlagsFrame : Obligations.MulResultFlagsFrame := by
  unfold Obligations.MulResultFlagsFrame
  intro d a b s
  have natural : truncNat (uint (readReg s a) * uint (readReg s b)) = readReg s a * readReg s b :=
    truncNat_mulNat _ _
  have integer : truncInt (sint (readReg s a) * sint (readReg s b)) = readReg s a * readReg s b :=
    truncInt_mulInt _ _
  rw [natural, integer]
  refine ⟨_, exec_mul d a b s, onlyRegWritten_writeOverflowFlags s d _ _ _,
    onlyRegWritten_writeOverflowFlags s d _ _ _, ?ovI, ?ovN, sameCCBut_writeOverflowFlags s d _ _ _,
    (sameButRegs_writeReg s d _).trans (sameButRegs_writeOverflowFlags _ _ _)⟩
  case ovI => rw [ccBit_writeOverflowFlags]; exact mulOvI_mulInt_iff _ _
  case ovN => rw [ccBit_writeOverflowFlags]; exact mulOvN_iff _

/-! ## Div -/

theorem exec_div_of_ne {d a b : Index} {s : State} (h : readReg s b ≠ 0) :
    exec (.div d a b) s
      = .next (writeOverflowFlags
          (writeReg s d (truncInt (divQuotient (readReg s a) (readReg s b))))
          (divOvI (divQuotient (readReg s a) (readReg s b))) false) := by
  simp only [exec, execDiv, if_neg h]

theorem natAbs_divQuotient (A B : Word) :
    (divQuotient A B).natAbs = (sint A).natAbs / (sint B).natAbs :=
  Int.natAbs_tdiv _ _

theorem divQuotient_nonneg {A B : Word} (h : 0 < sint A * sint B) : 0 ≤ divQuotient A B := by
  obtain ⟨hA, hB⟩ | ⟨hA, hB⟩ := pos_and_pos_or_neg_and_neg_of_mul_pos h
  · exact Int.tdiv_nonneg hA.le hB.le
  · exact Int.tdiv_nonneg_of_nonpos_of_nonpos hA.le hB.le

theorem divQuotient_nonpos {A B : Word} (h : sint A * sint B < 0) : divQuotient A B ≤ 0 := by
  obtain ⟨hA, hB⟩ | ⟨hA, hB⟩ := mul_neg_iff.mp h
  · exact Int.tdiv_nonpos_of_nonneg_of_nonpos hA.le hB.le
  · have flipped : 0 ≤ (-sint A).tdiv (sint B) := Int.tdiv_nonneg (by omega) hB.le
    rw [Int.neg_tdiv] at flipped
    exact Int.nonpos_of_neg_nonneg flipped

theorem sint_range (w : Word) : -32768 ≤ sint w ∧ sint w ≤ 32767 := by
  have := uint_lt w
  rw [sint_eq]
  split <;> omega

/-- A quotient above 32767 needs the largest magnitude over the smallest, and like signs. -/
theorem divOvI_divQuotient_iff (A B : Word) :
    divOvI (divQuotient A B) = true ↔ A = 0x8000 ∧ B = 0xFFFF := by
  rw [divOvI_iff]
  constructor
  · intro big
    have magnitude : 32768 ≤ (sint A).natAbs / (sint B).natAbs := by
      rw [← natAbs_divQuotient]
      omega
    have divisor_pos : 0 < (sint B).natAbs :=
      Nat.pos_of_ne_zero fun zero => by rw [zero, Nat.div_zero] at magnitude; omega
    rw [Nat.le_div_iff_mul_le divisor_pos] at magnitude
    have := sint_range A
    have dividend : sint A = -32768 := by omega
    have not_neg : ¬ sint A * sint B < 0 := fun neg => by
      have := divQuotient_nonpos neg
      omega
    have divisor : sint B = -1 := by
      rw [dividend] at not_neg
      omega
    exact ⟨BitVec.eq_of_toInt_eq dividend, BitVec.eq_of_toInt_eq divisor⟩
  · rintro ⟨rfl, rfl⟩
    decide

/-- Settles O16 (R203): the quotient truncates toward zero, so its magnitude is the quotient of the
magnitudes, and only -32768 by -1 leaves the range. -/
theorem divResultFlagsFrame : Obligations.DivResultFlagsFrame := by
  unfold Obligations.DivResultFlagsFrame
  intro d a b s hb
  refine ⟨_, divQuotient (readReg s a) (readReg s b), exec_div_of_ne hb, natAbs_divQuotient _ _,
    divQuotient_nonneg, divQuotient_nonpos, onlyRegWritten_writeOverflowFlags s d _ _ _, ?ovI, ?ovN,
    sameCCBut_writeOverflowFlags s d _ _ _,
    (sameButRegs_writeReg s d _).trans (sameButRegs_writeOverflowFlags _ _ _)⟩
  case ovI => rw [ccBit_writeOverflowFlags]; exact divOvI_divQuotient_iff _ _
  case ovN => rw [ccBit_writeOverflowFlags]; rfl

/-! ## Cmp -/

theorem exec_cmp (d a b : Index) (s : State) :
    exec (.cmp d a b) s = .next (writeCompareFlags s (readReg s a) (readReg s b)) :=
  rfl

/-- Settles O18 (R210). -/
theorem cmpFlagsFrame : Obligations.CmpFlagsFrame := by
  unfold Obligations.CmpFlagsFrame
  intro d a b s
  refine ⟨_, exec_cmp d a b s, ?gtI, ?gtN, ?eq, ?ltN, ?ltI,
    fun r hr => readReg_writeCompareFlags _ _ _ hr, ?otherBits, sameButRegs_writeCompareFlags s _ _⟩
  case gtI => rw [ccBit_writeCompareFlags]; exact decide_eq_true_iff
  case gtN => rw [ccBit_writeCompareFlags]; exact decide_eq_true_iff
  case eq => rw [ccBit_writeCompareFlags]; exact decide_eq_true_iff
  case ltN => rw [ccBit_writeCompareFlags]; exact decide_eq_true_iff
  case ltI => rw [ccBit_writeCompareFlags]; exact decide_eq_true_iff
  case otherBits =>
    intro k hk
    simp only [List.mem_cons, List.not_mem_nil, or_false, not_or] at hk
    obtain ⟨h0, h1, h2, h3, h4⟩ := hk
    rw [ccBit_writeCompareFlags, if_neg h4, if_neg h3, if_neg h2, if_neg h1, if_neg h0]

/-- A bit of a Word as 0 or 1. -/
theorem toNat_bitOf (w : Word) (k : Index) : (bitOf w k).toNat = uint w / 2 ^ k.val % 2 :=
  Nat.toNat_testBit _ _

/-- The low five bits of a Word as a number. -/
theorem uint_mod_32 (w : Word) :
    uint w % 32 = (bitOf w 0).toNat + 2 * (bitOf w 1).toNat + 4 * (bitOf w 2).toNat
      + 8 * (bitOf w 3).toNat + 16 * (bitOf w 4).toNat := by
  have place : (0 : Index).val = 0 ∧ (1 : Index).val = 1 ∧ (2 : Index).val = 2
      ∧ (3 : Index).val = 3 ∧ (4 : Index).val = 4 := by decide
  obtain ⟨p0, p1, p2, p3, p4⟩ := place
  rw [toNat_bitOf, toNat_bitOf, toNat_bitOf, toNat_bitOf, toNat_bitOf, p0, p1, p2, p3, p4]
  omega

/-- The five comparison flags of two Words as one number. -/
def comparePattern (A B : Word) : Nat :=
  (decide (sint B < sint A)).toNat + 2 * (decide (uint B < uint A)).toNat
    + 4 * (decide (A = B)).toNat + 8 * (decide (uint A < uint B)).toNat
    + 16 * (decide (sint A < sint B)).toNat

theorem uint_cc_writeCompareFlags (s : State) (A B : Word) :
    uint (readReg (writeCompareFlags s A B) 15) % 32 = comparePattern A B := by
  have bit : ∀ k, bitOf (readReg (writeCompareFlags s A B) 15) k = _ :=
    ccBit_writeCompareFlags s A B
  rw [uint_mod_32, bit, bit, bit, bit, bit]
  rfl

/-- Under one top bit the two readings order the operands alike. -/
theorem sint_lt_iff_of_msb_eq {A B : Word} (h : A.msb = B.msb) :
    sint A < sint B ↔ uint A < uint B := by
  have := uint_lt A
  have := uint_lt B
  rw [msb_eq_msb_iff] at h
  rw [sint_eq, sint_eq]
  split <;> split <;> omega

/-- Under different top bits the two readings order the operands contrariwise. -/
theorem sint_lt_iff_of_msb_ne {A B : Word} (h : A.msb ≠ B.msb) :
    sint A < sint B ↔ uint B < uint A := by
  have := uint_lt A
  have := uint_lt B
  rw [ne_eq, msb_eq_msb_iff] at h
  rw [sint_eq, sint_eq]
  split <;> split <;> omega

theorem comparePattern_self (A : Word) : comparePattern A A = 0x04 := by
  simp [comparePattern]

theorem comparePattern_of_ne {A B : Word} (h : A ≠ B) :
    comparePattern A B
      = if A.msb = B.msb then (if uint A < uint B then 0x18 else 0x03)
        else (if uint A < uint B then 0x09 else 0x12) := by
  have ne : uint A ≠ uint B := fun e => h (BitVec.eq_of_toNat_eq e)
  have gt_iff : uint B < uint A ↔ ¬ uint A < uint B := by omega
  by_cases same : A.msb = B.msb
  · by_cases lt : uint A < uint B <;>
      simp [comparePattern, h, same, sint_lt_iff_of_msb_eq same, sint_lt_iff_of_msb_eq same.symm,
        gt_iff, lt]
  · by_cases lt : uint A < uint B <;>
      simp [comparePattern, h, same, sint_lt_iff_of_msb_ne same,
        sint_lt_iff_of_msb_ne (Ne.symm same), gt_iff, lt]

/-- Settles O19: equal operands leave 0x04; unequal ones leave one of the four others, by whether the
top bits agree and which operand is the smaller natural. -/
theorem cmpLeavesOneOfFivePatterns : Obligations.CmpLeavesOneOfFivePatterns := by
  unfold Obligations.CmpLeavesOneOfFivePatterns
  intro d a b s
  refine ⟨_, exec_cmp d a b s, ?_⟩
  rw [uint_cc_writeCompareFlags]
  by_cases h : readReg s a = readReg s b
  · rw [h, comparePattern_self]
    simp
  · rw [comparePattern_of_ne h]
    split <;> split <;> simp_all

end Sys2Proof.Machine
end

section
/-!
PROOFS. The instructions that move `pc`: the four jumps (R230 to R235), Rfi and Halt (R240, R241), and
the entry sequence with the two instructions that make it, Trap and Div by 0 (R203, R215, R264).
-/

namespace Sys2Proof.Machine

/-! ## Jumps -/

theorem sameControl_setPc (s : State) (v : Word) : SameControl s (s.setPc v) := by
  constructor <;> simp

/-- What a jump, taken or not, leaves: only `pc` and `adr` can differ. -/
theorem jumpWhen_eq (taken : Bool) (s : State) (a : Index) (disp : Word) :
    jumpWhen taken s a disp
      = (withAddress s a disp).setPc (if taken then effectiveAddress s a disp else s.pc) := by
  cases taken <;> rfl

@[simp] theorem jumpWhen_pc (taken : Bool) (s : State) (a : Index) (disp : Word) :
    (jumpWhen taken s a disp).pc = if taken then effectiveAddress s a disp else s.pc := by
  simp [jumpWhen_eq]

@[simp] theorem jumpWhen_adr (taken : Bool) (s : State) (a : Index) (disp : Word) :
    (jumpWhen taken s a disp).adr = effectiveAddress s a disp := by
  simp [jumpWhen_eq]

/-- Everything a jump keeps (R235). -/
theorem jumpWhen_frame (taken : Bool) (s : State) (a : Index) (disp : Word) :
    SameRegs s (jumpWhen taken s a disp) ∧ (jumpWhen taken s a disp).ir = s.ir
      ∧ (jumpWhen taken s a disp).dat = s.dat ∧ SameControl s (jumpWhen taken s a disp)
      ∧ SameMem s (jumpWhen taken s a disp) := by
  rw [jumpWhen_eq]
  refine ⟨readReg_congr (by simp), by simp, by simp, ?_, sameMem_of_mem_eq (by simp)⟩
  exact (sameControl_withAddress s a disp).trans (sameControl_setPc _ _)

theorem exec_jump (d a : Index) (disp : Word) (s : State) :
    exec (.jump d a disp) s = .next (jumpWhen true s a disp) :=
  rfl

theorem exec_jumpc0 (k a : Index) (disp : Word) (s : State) :
    exec (.jumpc0 k a disp) s = .next (jumpWhen (!ccBit s k) s a disp) :=
  rfl

theorem exec_jumpc1 (k a : Index) (disp : Word) (s : State) :
    exec (.jumpc1 k a disp) s = .next (jumpWhen (ccBit s k) s a disp) :=
  rfl

theorem exec_jal (d a : Index) (disp : Word) (s : State) :
    exec (.jal d a disp) s
      = .next ((writeReg (withAddress s a disp) d s.pc).setPc (effectiveAddress s a disp)) :=
  rfl

/-- A bit of `R15` as a number, as the conditional jumps are specified by it. -/
theorem ccBit_eq_decide (s : State) (k : Index) :
    ccBit s k = decide (uint (readReg s 15) / 2 ^ k.val % 2 = 1) :=
  bitOf_eq_decide _ _

/-- Settles O28 (R230): Jump is the jump that is always taken. -/
theorem jumpResultFrame : Obligations.JumpResultFrame := by
  unfold Obligations.JumpResultFrame
  intro d a disp s
  exact ⟨_, exec_jump d a disp s, jumpWhen_pc true s a disp, jumpWhen_adr true s a disp,
    jumpWhen_frame true s a disp⟩

/-- Settles O29 (R231). -/
theorem jumpc0ResultFrame : Obligations.Jumpc0ResultFrame := by
  unfold Obligations.Jumpc0ResultFrame
  intro k a disp s
  refine ⟨_, exec_jumpc0 k a disp s, ?pc, jumpWhen_adr _ s a disp, jumpWhen_frame _ s a disp⟩
  case pc =>
    rw [jumpWhen_pc, ccBit_eq_decide]
    refine if_congr ?_ rfl rfl
    rw [Bool.not_eq_true', decide_eq_false_iff_not]
    omega

/-- Settles O30 (R232). -/
theorem jumpc1ResultFrame : Obligations.Jumpc1ResultFrame := by
  unfold Obligations.Jumpc1ResultFrame
  intro k a disp s
  refine ⟨_, exec_jumpc1 k a disp s, ?pc, jumpWhen_adr _ s a disp, jumpWhen_frame _ s a disp⟩
  case pc =>
    rw [jumpWhen_pc, ccBit_eq_decide]
    exact if_congr decide_eq_true_iff rfl rfl

/-- Settles O31: in a legal state the tested bit is 0. -/
theorem jumpsOnUnwrittenBits : Obligations.JumpsOnUnwrittenBits := by
  unfold Obligations.JumpsOnUnwrittenBits
  intro k a disp s legal hk
  have zero := legal.cc k hk
  exact ⟨⟨_, exec_jumpc0 k a disp s, by rw [jumpWhen_pc, zero]; rfl⟩,
    ⟨_, exec_jumpc1 k a disp s, by rw [jumpWhen_pc, zero]; rfl⟩⟩

/-- Settles O32 (R233): the target and the link are values of the state before the Jal. -/
theorem jalResultFrame : Obligations.JalResultFrame := by
  unfold Obligations.JalResultFrame
  intro d a disp s
  rw [← effectiveAddress_eq_truncNat]
  refine ⟨_, exec_jal d a disp s, ?pc, ?adr, ?dest, ?ir, ?dat, ?control, ?mem⟩
  case pc => simp
  case adr => simp
  case dest => exact onlyRegWritten_writeReg (withAddress_regs s a disp) d s.pc
  case ir => simp
  case dat => simp
  case control =>
    exact ((sameControl_withAddress s a disp).trans (sameControl_writeReg _ _ _)).trans
      (sameControl_setPc _ _)
  case mem => exact sameMem_of_mem_eq (by simp)

/-! ## The entry sequence, and the instructions that make it -/

/-- Settles O36 (R264). -/
theorem entrySequence : Obligations.EntrySequence := by
  unfold Obligations.EntrySequence
  intro c s
  exact ⟨trapEntry_rpc c s, bitOf_savedStatus s, trapEntry_pc c s, trapEntry_sys c s,
    trapEntry_ie c s, readReg_congr (trapEntry_regs c s), sameMem_of_mem_eq (trapEntry_mem c s),
    trapEntry_ir c s, trapEntry_adr c s, trapEntry_dat c s, trapEntry_mask c s, trapEntry_req c s,
    trapEntry_vect c s, trapEntry_state c s, trapEntry_schedule c s⟩

/-- The state `t` is `s` with the handler entered: `pc` and the mode saved, everything else kept. -/
def HandlerEntered (s t : State) : Prop :=
  t.rpc = s.pc ∧ uint t.rstat = 2 * s.ie.toNat + s.sys.toNat ∧ t.pc = s.vect
    ∧ t.sys = true ∧ t.ie = false
    ∧ SameRegs s t ∧ SameMem s t ∧ t.ir = s.ir ∧ t.adr = s.adr ∧ t.dat = s.dat
    ∧ t.mask = s.mask ∧ t.req = s.req ∧ t.vect = s.vect ∧ t.state = s.state
    ∧ t.schedule = s.schedule

theorem handlerEntered_trapEntry (c : Cause) (s : State) : HandlerEntered s (trapEntry c s) := by
  obtain ⟨rpc, -, rest⟩ := entrySequence c s
  exact ⟨rpc, uint_savedStatus s, rest⟩

theorem exec_trap (d a b : Index) (s : State) :
    exec (.trap d a b) s = .next (trapEntry (trapCause d a b) s) :=
  rfl

theorem exec_div_of_eq {d a b : Index} {s : State} (h : readReg s b = 0) :
    exec (.div d a b) s = .next (trapEntry .divideByZero s) := by
  simp only [exec, execDiv, if_pos h, raise]

/-- Settles O20 (R215): the fields choose the cause alone, and the entry does not depend on it. -/
theorem trapEntersHandler : Obligations.TrapEntersHandler := by
  unfold Obligations.TrapEntersHandler
  exact fun d a b s => ⟨_, exec_trap d a b s, handlerEntered_trapEntry _ s⟩

/-- Settles O17 (R203, R252): the test of the divisor comes before any write. -/
theorem divByZeroEntersHandler : Obligations.DivByZeroEntersHandler := by
  unfold Obligations.DivByZeroEntersHandler
  exact fun d a b s zero => ⟨_, exec_div_of_eq zero, handlerEntered_trapEntry _ s⟩

/-! ## Rfi and Halt -/

theorem exec_rfi (d a : Index) (disp : Word) (s : State) :
    exec (.rfi d a disp) s = .next (returnFromTrap s) :=
  rfl

theorem exec_halt (d a : Index) (disp : Word) (s : State) :
    exec (.halt d a disp) s = .next (s.setState .halt) :=
  rfl

/-- Settles O33 (R240). -/
theorem rfiResultFrame : Obligations.RfiResultFrame := by
  unfold Obligations.RfiResultFrame
  intro d a disp s
  exact ⟨_, exec_rfi d a disp s, returnFromTrap_pc s, bitOf_eq_decide s.rstat 1,
    returnFromTrap_sys s, readReg_congr (returnFromTrap_regs s),
    sameMem_of_mem_eq (returnFromTrap_mem s), returnFromTrap_ir s, returnFromTrap_adr s,
    returnFromTrap_dat s, returnFromTrap_mask s, returnFromTrap_req s, returnFromTrap_rstat s,
    returnFromTrap_rpc s, returnFromTrap_vect s, returnFromTrap_state s, returnFromTrap_schedule s⟩

/-- Settles O34 (R241). -/
theorem haltResultFrame : Obligations.HaltResultFrame := by
  unfold Obligations.HaltResultFrame
  exact fun d a disp s => ⟨_, exec_halt d a disp s, rfl⟩

/-- Settles O37 (R265, R268): bit 1 of the saved status is the `ie` of before the entry. -/
theorem returnUndoesEntry : Obligations.ReturnUndoesEntry := by
  unfold Obligations.ReturnUndoesEntry
  intro c d a disp s
  refine ⟨_, exec_rfi d a disp (trapEntry c s), by simp, ?ie, by simp, readReg_congr (by simp),
    sameMem_of_mem_eq (by simp), by simp, by simp, by simp⟩
  case ie => exact bitOf_savedStatus s 1

end Sys2Proof.Machine
end

section
/-!
PROOFS. The step taken apart: the state the fetch leaves, whose turn it is, and the three ways a cycle
ends (R296): its instruction trapped, or it did not and no request was taken, or it did not and one was.
-/

namespace Sys2Proof.Machine

/-! ## The state a cycle's instruction runs in -/

@[simp] theorem fetchedState_regs (s : State) : (fetchedState s).regs = s.regs := fetchInstr_regs _
@[simp] theorem fetchedState_ir (s : State) : (fetchedState s).ir = readWord s.mem s.pc :=
  fetchInstr_ir _
@[simp] theorem fetchedState_dat (s : State) : (fetchedState s).dat = s.dat := fetchInstr_dat _
@[simp] theorem fetchedState_mask (s : State) : (fetchedState s).mask = s.mask := fetchInstr_mask _
@[simp] theorem fetchedState_req (s : State) : (fetchedState s).req = s.req := fetchInstr_req _
@[simp] theorem fetchedState_rstat (s : State) : (fetchedState s).rstat = s.rstat :=
  fetchInstr_rstat _
@[simp] theorem fetchedState_rpc (s : State) : (fetchedState s).rpc = s.rpc := fetchInstr_rpc _
@[simp] theorem fetchedState_vect (s : State) : (fetchedState s).vect = s.vect := fetchInstr_vect _
@[simp] theorem fetchedState_sys (s : State) : (fetchedState s).sys = s.sys := fetchInstr_sys _
@[simp] theorem fetchedState_ie (s : State) : (fetchedState s).ie = s.ie := fetchInstr_ie _
@[simp] theorem fetchedState_mem (s : State) : (fetchedState s).mem = s.mem := fetchInstr_mem _
@[simp] theorem fetchedState_state (s : State) : (fetchedState s).state = s.state :=
  fetchInstr_state _

/-- The length test as the comparison some statements write it as. -/
theorem ite_isTwoWord {α : Type} (w : Word) (x y : α) :
    (if isTwoWord w = true then x else y) = if 0xE000 ≤ uint w then x else y :=
  if_congr (isTwoWord_iff w) rfl rfl

theorem fetchedState_pc (s : State) :
    (fetchedState s).pc = s.pc + (if 0xE000 ≤ uint (readWord s.mem s.pc) then 2 else 1) := by
  rw [fetchedState_eq, ite_isTwoWord]
  split <;> rfl

theorem fetchedState_adr (s : State) :
    (fetchedState s).adr
      = if 0xE000 ≤ uint (readWord s.mem s.pc) then readWord s.mem (s.pc + 1) else s.adr := by
  rw [fetchedState_eq, ite_isTwoWord]
  split <;> rfl

/-! ## The instruction of a cycle -/

/-- A one-word first word never decodes to an instruction of two words. -/
theorem isTwoWord_encode_decode {w1 : Word} (w2 : Word) (h : isTwoWord w1 = false) :
    isTwoWord ((encode (decode w1 w2)).headD 0) = false := by
  cases hr : rrrOf (opField w1).val with
  | some mk => rw [encode_decode_of_rrrOf w2 hr]; exact h
  | none =>
    have no_two : twoWordOf (opField w1).val (bField w1).val = none :=
      Option.eq_none_iff_forall_ne_some.mpr fun mk ht => by
        have := le_of_twoWordOf ht
        rw [isTwoWord, decide_eq_false_iff_not] at h
        exact h this
    rw [decode_of_no_selection w2 hr no_two, encode_illegalTrap]
    decide

/-- The instruction of a cycle has two words only if the first word says so. -/
theorem isTwoWord_of_fetched {s : State}
    (h : isTwoWord ((encode (fetched s)).headD 0) = true) :
    isTwoWord (readWord s.mem s.pc) = true := by
  by_contra short
  rw [Bool.not_eq_true] at short
  rw [fetched_eq, if_neg (by rw [short]; exact Bool.false_ne_true),
    isTwoWord_encode_decode 0 short] at h
  cases h

theorem fetched_of_selectsNothing {s : State} (h : SelectsNothing (readWord s.mem s.pc)) :
    fetched s = illegalTrap := by
  rw [fetched_eq]
  split <;> exact decode_of_selectsNothing _ h

/-! ## What a step does -/

theorem step_of_coreSteps {s u : State} (h : CoreSteps s)
    (hx : exec (fetched s) (fetchedState s) = .next u) : step s = .next (interruptCheck u) := by
  rw [fetched, fetchedState] at hx
  rw [step_core h.1 h.2, hx, finishCycle]

/-- The step of the core, inverted. -/
theorem exec_of_coreSteps {s t : State} (h : CoreSteps s) (ht : step s = .next t) :
    ∃ u, exec (fetched s) (fetchedState s) = .next u ∧ t = interruptCheck u := by
  obtain ⟨u, hx⟩ := exec_answers (fetched s) (fetchedState s)
  rw [step_of_coreSteps h hx] at ht
  injection ht with ht
  exact ⟨u, hx, ht.symm⟩

theorem stepEvent_of_raised {s : State} {c : Cause} (h : CoreSteps s)
    (hr : raisedBy (fetched s) (fetchedState s) = some c) : stepEvent s = some c := by
  rw [fetched, fetchedState] at hr
  simp only [stepEvent, h.1, h.2, if_true, cycleEvent, hr]

theorem stepEvent_of_not_raised {s u : State} (h : CoreSteps s)
    (hr : raisedBy (fetched s) (fetchedState s) = none)
    (hx : exec (fetched s) (fetchedState s) = .next u) : stepEvent s = interruptLabel u := by
  rw [fetched, fetchedState] at hr hx
  simp only [stepEvent, h.1, h.2, if_true, cycleEvent, hr, hx]

/-- Only a step of the core in Executing has a label. -/
theorem coreSteps_of_stepEvent {s : State} {c : Cause} (h : stepEvent s = some c) : CoreSteps s := by
  unfold stepEvent at h
  split at h
  · next core =>
    split at h
    · next executing => exact ⟨core, executing⟩
    · cases h
  · cases h

/-- The step taken apart, in the terms of the statements. -/
theorem step_inv {s t : State} (h : step s = .next t) :
    (CoreSteps s ∧ ∃ u, exec (fetched s) (fetchedState s) = .next u ∧ t = interruptCheck u)
    ∨ (¬ CoreSteps s ∧ t = takeTurn s)
    ∨ ∃ m, nextTurn s = .host m ∧ t = (hostMove m (takeTurn s)).1 := by
  obtain ⟨core, executing, run⟩ | ⟨-, idle, ht⟩ | host := step_cases h
  · exact .inl ⟨⟨core, executing⟩, run⟩
  · exact .inr (.inl ⟨fun h => idle h.2, ht⟩)
  · exact .inr (.inr host)

theorem not_coreSteps_of_host {s : State} {m : HostMove} (h : nextTurn s = .host m) :
    ¬ CoreSteps s := fun hc => by
  rw [hc.1] at h
  cases h

theorem stepEvent_eq_none {s : State} (h : ¬ CoreSteps s) : stepEvent s = none :=
  Option.eq_none_iff_forall_ne_some.mpr fun _ label => h (coreSteps_of_stepEvent label)

/-- How a cycle whose instruction answered `u` ends: in `t`, under the step's label. -/
inductive CycleEnds (s u t : State) : Prop
  /-- the instruction raised a cause: it made the entry, and the check found `ie` false -/
  | trapped (c : Cause) (raised : raisedBy (fetched s) (fetchedState s) = some c)
      (sync : ∀ n, c ≠ .interrupt n) (label : stepEvent s = some c)
      (entry : u = trapEntry c (fetchedState s)) (same : t = u)
  /-- nothing was raised and no request taken -/
  | plain (quiet : raisedBy (fetched s) (fetchedState s) = none) (label : stepEvent s = none)
      (same : t = u)
  /-- nothing was raised and request `n` was taken -/
  | interrupted (n : Index) (quiet : raisedBy (fetched s) (fetchedState s) = none)
      (label : stepEvent s = some (.interrupt n)) (executing : u.state = .executing)
      (taken : interruptTaken u = some n) (entry : t = takeInterrupt n u)

/-- The check takes the request the label names. -/
theorem interruptCheck_label (u : State) :
    (interruptLabel u = none ∧ interruptCheck u = u)
    ∨ ∃ n, interruptLabel u = some (.interrupt n) ∧ u.state = .executing
        ∧ interruptTaken u = some n ∧ interruptCheck u = takeInterrupt n u := by
  unfold interruptLabel interruptCheck
  split
  · next executing =>
    cases taken : interruptTaken u with
    | none => exact .inl ⟨rfl, rfl⟩
    | some n => exact .inr ⟨n, rfl, executing, rfl, rfl⟩
  · exact .inl ⟨rfl, rfl⟩

/-- An instruction that raises a cause answers with the entry for it, and with nothing else. -/
theorem exec_of_raisedBy {i : Instr} {s t : State} {c : Cause} (hr : raisedBy i s = some c)
    (hx : exec i s = .next t) : t = trapEntry c s ∧ ∀ n, c ≠ .interrupt n := by
  obtain ⟨-, -, -, -, -, -, -, -, -, -, ⟨quiet, -⟩ | ⟨c', raised, entry, sync⟩⟩ := exec_frame i hx
  · rw [quiet] at hr
    cases hr
  · rw [raised] at hr
    cases hr
    exact ⟨entry, sync⟩

/-- Every step of the core is an instruction and one of the three ends. -/
theorem coreStep_ends {s t : State} (h : CoreSteps s) (ht : step s = .next t) :
    ∃ u, exec (fetched s) (fetchedState s) = .next u ∧ CycleEnds s u t := by
  obtain ⟨u, hx, rfl⟩ := exec_of_coreSteps h ht
  refine ⟨u, hx, ?_⟩
  cases hr : raisedBy (fetched s) (fetchedState s) with
  | some c =>
    obtain ⟨entry, sync⟩ := exec_of_raisedBy hr hx
    have ie : u.ie = false := by rw [entry, trapEntry_ie]
    exact .trapped c hr sync (stepEvent_of_raised h hr) entry (interruptCheck_of_ie_false ie)
  | none =>
    have event := stepEvent_of_not_raised h hr hx
    obtain ⟨label, same⟩ | ⟨n, label, executing, taken, entry⟩ := interruptCheck_label u
    · exact .plain hr (event.trans label) same
    · exact .interrupted n hr (event.trans label) executing taken entry

/-! ## The statements about the step -/

/-- Settles O9 (R308): the core's turn answers since every instruction does. -/
theorem everyStepAnswersNext : Obligations.EveryStepAnswersNext := by
  unfold Obligations.EveryStepAnswersNext
  intro s
  cases turn : nextTurn s with
  | core =>
    by_cases executing : s.state = .executing
    · obtain ⟨u, hx⟩ := exec_answers (fetched s) (fetchedState s)
      exact ⟨_, step_of_coreSteps ⟨turn, executing⟩ hx⟩
    · exact ⟨_, step_idle turn executing⟩
  | host m => exact ⟨_, step_host turn⟩

/-- Settles O6: the bytes of the two cells decode to the instruction fetched, and the state written
out is the one the fetch leaves. -/
theorem stepRunsDecodedInstruction : Obligations.StepRunsDecodedInstruction := by
  unfold Obligations.StepRunsDecodedInstruction
  intro s i rest core decoded
  obtain ⟨u, hx⟩ := exec_answers (fetched s) (fetchedState s)
  have same_instr : i = fetched s := by
    rw [fetched_eq]
    cases two : isTwoWord (readWord s.mem s.pc) with
    | true =>
      rw [← List.append_nil (bytesOfWord (readWord s.mem (s.pc + 1))),
        decodeBytes_twoWord _ _ two] at decoded
      cases decoded
      rfl
    | false =>
      rw [decodeBytes_oneWord _ two] at decoded
      cases decoded
      rfl
  refine ⟨u, ?_, step_of_coreSteps core hx⟩
  rw [← ite_isTwoWord, ← fetchedState_eq, same_instr]
  exact hx

/-- Settles O7 (R299). -/
theorem hostTurnIsOneWholeMove : Obligations.HostTurnIsOneWholeMove := by
  unfold Obligations.HostTurnIsOneWholeMove
  intro s m rest scheduled
  have turn : nextTurn s = .host m := nextTurn_of_schedule scheduled
  refine ⟨?_, stepEvent_eq_none (not_coreSteps_of_host turn)⟩
  rw [step_host turn, takeTurn, scheduled, List.tail_cons]

/-- Settles O8 (R136, R297). -/
theorem coreIsIdleOutsideExecuting : Obligations.CoreIsIdleOutsideExecuting := by
  unfold Obligations.CoreIsIdleOutsideExecuting
  exact fun _ => step_idle

/-- Settles O10 (R121 to R123): after the fetch `ir` is never written, `adr` only by the instructions
of two words, `dat` only by Load and Store; the interrupt check writes none of them. -/
theorem scratchRegistersOfACycle : Obligations.ScratchRegistersOfACycle := by
  unfold Obligations.ScratchRegistersOfACycle
  intro s t core ht
  obtain ⟨u, hx, rfl⟩ := exec_of_coreSteps core ht
  obtain ⟨-, -, -, -, ir, -, adr, dat, -⟩ := exec_frame _ hx
  rw [interruptCheck_ir, interruptCheck_adr, interruptCheck_dat]
  rw [fetchedState_adr, ← ite_isTwoWord] at adr
  refine ⟨by rw [ir, fetchedState_ir], fun short => ?oneWord, fun illegal long => ?illegal,
    fun changed => ?dat⟩
  case oneWord =>
    obtain kept | two := adr
    · rw [kept, short]
      rfl
    · rw [isTwoWord_of_fetched two] at short
      cases short
  case illegal =>
    rw [fetched_of_selectsNothing illegal, encode_illegalTrap, long] at adr
    exact adr.resolve_right (by decide)
  case dat =>
    rw [fetchedState_dat] at dat
    exact dat.resolve_left changed

/-- Settles O12 (R114, R117): in a cycle, only an instruction that writes flags reaches `R15`; no move
of the environment but Reset touches a register. -/
theorem conditionCodesChangeOnlyByTheirWriters :
    Obligations.ConditionCodesChangeOnlyByTheirWriters := by
  unfold Obligations.ConditionCodesChangeOnlyByTheirWriters
  intro s t ht changed
  obtain ⟨core, u, hx, rfl⟩ | ⟨-, rfl⟩ | ⟨m, turn, rfl⟩ := step_inv ht
  · obtain ⟨-, -, -, -, -, -, -, -, -, kept | writes, -⟩ := exec_frame _ hx
    · rw [readReg_congr (interruptCheck_regs u), kept, readReg_congr (fetchedState_regs s)] at changed
      exact absurd rfl changed
    · exact .inl ⟨core, writes⟩
  · exact absurd (readReg_congr (takeTurn_regs s) 15) changed
  · right
    by_contra other
    obtain ⟨regs, -⟩ := hostMove_frame (fun reset => other (reset ▸ turn)) rfl
    exact changed (readReg_congr (regs.trans (takeTurn_regs s)) 15)

end Sys2Proof.Machine
end

section
/-!
PROOFS. Exceptions (60_exceptions.md): the interrupt check, the labels of a step, and which steps write
`req`, `rpc`, `rstat` and `sys`. Each statement about a step of the core is read off from the three
ends of a cycle (`CycleEnds`).
-/

namespace Sys2Proof.Machine

/-! ## The interrupt check -/

theorem interruptCheck_of_taken {s : State} {n : Index} (executing : s.state = .executing)
    (taken : interruptTaken s = some n) : interruptCheck s = takeInterrupt n s := by
  simp only [interruptCheck, executing, if_true, taken]

theorem interruptCheck_of_not_executing {s : State} (h : s.state ≠ .executing) :
    interruptCheck s = s := by
  rw [interruptCheck, if_neg h]

theorem bitOf_takeInterrupt_req (n : Index) (s : State) (k : Index) :
    bitOf (takeInterrupt n s).req k = (bitOf s.req k && k != n) := by
  rw [takeInterrupt, trapEntry_req, State.setReq_req, bitOf_setBit]
  by_cases h : k = n <;> simp [h]

theorem interruptTaken_of_lowest {s : State} {n : Index} (ie : s.ie = true)
    (pending : bitOf s.req n = true) (unmasked : bitOf s.mask n = true)
    (lowest : ∀ m : Index, m < n → bitOf s.req m = true → bitOf s.mask m = false) :
    interruptTaken s = some n := by
  rw [interruptTaken_eq_some, lowestSet_eq_some, bitOf_and, pending, unmasked]
  refine ⟨ie, rfl, fun m hm => ?_⟩
  rw [bitOf_and, Bool.and_eq_false_imp]
  exact lowest m hm

/-- Settles O38 (R258, R259): the encoder answers the lowest request, and taking it is the entry with
that bit of `req` cleared. -/
theorem interruptCheckTakesTheLowest : Obligations.InterruptCheckTakesTheLowest := by
  unfold Obligations.InterruptCheckTakesTheLowest
  intro s n executing ie pending unmasked lowest
  rw [interruptCheck_of_taken executing (interruptTaken_of_lowest ie pending unmasked lowest)]
  obtain ⟨rpc, rstat, pc, sys, ie', regs, mem, -, -, -, mask, -, vect, state, -⟩ :=
    handlerEntered_trapEntry (.interrupt n) (s.setReq (setBit s.req n false))
  refine ⟨bitOf_takeInterrupt_req n s, rpc, ?_, pc, sys, ie', regs, mem, mask, vect,
    state.trans executing⟩
  rw [takeInterrupt, rstat, State.setReq_ie, State.setReq_sys, ie]
  rfl

/-- Settles O39 (R257, R130): whatever the check could take would be enabled, unmasked and taken while
Executing. -/
theorem interruptCheckWaits : Obligations.InterruptCheckWaits := by
  unfold Obligations.InterruptCheckWaits
  intro s waits
  obtain same | ⟨n, executing, taken, -⟩ := interruptCheck_cases s
  · exact same
  · obtain ⟨ie, pending, unmasked⟩ := interruptTaken_bits taken
    obtain disabled | idle | masked := waits
    · rw [ie] at disabled
      cases disabled
    · exact absurd executing idle
    · rw [masked n pending] at unmasked
      cases unmasked

/-! ## A cycle whose instruction traps -/

/-- The entry is made from the fetched state, and the check that follows finds `ie` false. -/
theorem step_of_raised {s : State} {c : Cause} (h : CoreSteps s)
    (hr : raisedBy (fetched s) (fetchedState s) = some c) :
    step s = .next (trapEntry c (fetchedState s)) := by
  obtain ⟨u, hx⟩ := exec_answers (fetched s) (fetchedState s)
  obtain ⟨rfl, -⟩ := exec_of_raisedBy hr hx
  rw [step_of_coreSteps h hx, interruptCheck_of_ie_false (trapEntry_ie c _)]

/-- Settles O40 (R261). -/
theorem trapBeatsInterrupt : Obligations.TrapBeatsInterrupt := by
  unfold Obligations.TrapBeatsInterrupt
  exact fun s _ core raised =>
    ⟨stepEvent_of_raised core raised, step_of_raised core raised, fetchedState_req s⟩

/-- Settles O21 (R182, R216): a word that selects nothing decodes to the trap of all-zero fields, and
`pc` and `adr` are those the fetch left. -/
theorem illegalWordEntersHandler : Obligations.IllegalWordEntersHandler := by
  unfold Obligations.IllegalWordEntersHandler
  intro s core illegal
  have raised : raisedBy (fetched s) (fetchedState s) = some .illegalInstruction := by
    rw [fetched_of_selectsNothing illegal]
    rfl
  refine ⟨stepEvent_of_raised core raised, _, step_of_raised core raised, fetchedState_pc s,
    fetchedState_adr s, fetchedState_ir s, ?rstat, fetchedState_vect s, rfl, rfl,
    readReg_congr (fetchedState_regs s), sameMem_of_mem_eq (fetchedState_mem s),
    fetchedState_dat s, fetchedState_mask s, fetchedState_req s, fetchedState_vect s,
    fetchedState_state s⟩
  case rstat =>
    rw [trapEntry_rstat, uint_savedStatus, fetchedState_ie, fetchedState_sys]

/-- Settles O35 (R241, R258): Halt leaves Executing, where the check is not made; it is an instruction
of two words, so `pc` is two past it. -/
theorem haltSkipsTheInterruptCheck : Obligations.HaltSkipsTheInterruptCheck := by
  unfold Obligations.HaltSkipsTheInterruptCheck
  intro s d a disp core halts
  have hx : exec (fetched s) (fetchedState s) = .next ((fetchedState s).setState .halt) := by
    rw [halts, exec_halt]
  have quiet : raisedBy (fetched s) (fetchedState s) = none := by
    rw [halts]
    rfl
  have not_executing : ((fetchedState s).setState .halt).state ≠ .executing := nofun
  have two : 0xE000 ≤ uint (readWord s.mem s.pc) := by
    rw [← isTwoWord_iff]
    refine isTwoWord_of_fetched ?_
    rw [halts, encode_of_twoWordOf (op := 0xE) (b := 0x5) rfl, List.headD_cons,
      isTwoWord_packWord _ _ _ _ (by decide) (by decide)]
    rfl
  refine ⟨?label, (fetchedState s).setState .halt, ?next, rfl, ?pc, fetchedState_req s,
    fetchedState_ie s, fetchedState_sys s, fetchedState_rpc s, fetchedState_rstat s,
    readReg_congr (fetchedState_regs s), sameMem_of_mem_eq (fetchedState_mem s)⟩
  case label => rw [stepEvent_of_not_raised core quiet hx, interruptLabel, if_neg not_executing]
  case next => rw [step_of_coreSteps core hx, interruptCheck_of_not_executing not_executing]
  case pc => rw [State.setState_pc, fetchedState_pc, if_pos two]

/-! ## Labels, entries and what they write -/

theorem exec_req {s u : State} (hx : exec (fetched s) (fetchedState s) = .next u) :
    u.req = s.req := by
  obtain ⟨-, req, -⟩ := exec_frame _ hx
  exact req.trans (fetchedState_req s)

theorem exec_mask {s u : State} (hx : exec (fetched s) (fetchedState s) = .next u) :
    u.mask = s.mask := by
  obtain ⟨mask, -⟩ := exec_frame _ hx
  exact mask.trans (fetchedState_mask s)

theorem exec_vect {s u : State} (hx : exec (fetched s) (fetchedState s) = .next u) :
    u.vect = s.vect := by
  obtain ⟨-, -, vect, -⟩ := exec_frame _ hx
  exact vect.trans (fetchedState_vect s)

/-- An instruction that raises nothing keeps `rpc` and `rstat`, and only Rfi writes `sys` and `ie`. -/
theorem exec_mode_of_quiet {s u : State} (hx : exec (fetched s) (fetchedState s) = .next u)
    (quiet : raisedBy (fetched s) (fetchedState s) = none) :
    u.rpc = s.rpc ∧ u.rstat = s.rstat
      ∧ ((u.sys = s.sys ∧ u.ie = s.ie)
        ∨ (∃ d a disp, fetched s = .rfi d a disp) ∧ u.sys = false ∧ u.ie = bitOf s.rstat 1) := by
  obtain ⟨-, -, -, -, -, -, -, -, -, -, ⟨-, rpc, rstat, mode⟩ | ⟨c, raised, -⟩⟩ := exec_frame _ hx
  · rw [fetchedState_rpc] at rpc
    rw [fetchedState_rstat] at rstat
    rw [fetchedState_sys, fetchedState_ie, fetchedState_rstat] at mode
    exact ⟨rpc, rstat, mode⟩
  · rw [quiet] at raised
    cases raised

/-- One request's label is another's exactly when the requests are the same. -/
theorem bne_interrupt (n k : Index) :
    (some (Cause.interrupt n) != some (.interrupt k)) = (k != n) := by
  rw [Bool.eq_iff_iff, bne_iff_ne, bne_iff_ne, ne_eq, ne_eq, Option.some_inj, Cause.interrupt.injEq,
    eq_comm]

/-- Settles O41 (R256, R257, R259): no instruction writes `req`, and only the third end of a cycle
does, for the request it takes. -/
theorem requestsStayLatched : Obligations.RequestsStayLatched := by
  unfold Obligations.RequestsStayLatched
  intro s t core ht
  obtain ⟨u, hx, ending⟩ := coreStep_ends core ht
  have req := exec_req hx
  have mask := exec_mask hx
  cases ending with
  | trapped c _ sync label _ same =>
    rw [same, label, req]
    refine ⟨fun k => ?_, fun n named => absurd (Option.some.inj named) (sync n)⟩
    simp [sync k]
  | plain _ label same =>
    rw [same, label, req]
    exact ⟨fun k => by simp, nofun⟩
  | interrupted n _ label _ taken entry =>
    rw [label, entry]
    obtain ⟨-, pending, unmasked⟩ := interruptTaken_bits taken
    rw [req] at pending
    rw [mask] at unmasked
    refine ⟨fun k => ?_, fun m named => ?_⟩
    · rw [bitOf_takeInterrupt_req, req, bne_interrupt]
    · cases named
      exact ⟨pending, unmasked⟩

/-- Settles O42 (R251, R258, R264). -/
theorem eventIsOneEntry : Obligations.EventIsOneEntry := by
  unfold Obligations.EventIsOneEntry
  intro s t c ht event
  obtain ⟨u, hx, ending⟩ := coreStep_ends (coreSteps_of_stepEvent event) ht
  cases ending with
  | trapped c' _ sync label entry same =>
    obtain rfl : c' = c := Option.some.inj (label.symm.trans event)
    subst same
    refine ⟨fun _ => entry, fun n named => absurd named (sync n), ?_⟩
    rw [entry]
    exact ⟨fetchedState_vect s, rfl, rfl⟩
  | plain _ label _ =>
    rw [label] at event
    cases event
  | interrupted n _ label executing taken entry =>
    obtain rfl : .interrupt n = c := Option.some.inj (label.symm.trans event)
    subst entry
    refine ⟨fun sync => absurd rfl (sync n), fun m named => ?_, ?_, rfl, rfl⟩
    · cases named
      exact ⟨u, hx, (interruptTaken_bits taken).1, executing, rfl⟩
    · exact (exec_vect hx :)

/-- Settles O45 (R126, R127): the plain end of a cycle, the idle turn and every move but Reset keep
both; the two other ends are entries. -/
theorem rpcIsWrittenByEntriesOnly : Obligations.RpcIsWrittenByEntriesOnly := by
  unfold Obligations.RpcIsWrittenByEntriesOnly
  refine ⟨trapEntry_rpc, fun s t ht changed => ?writers,
    fun d a disp s => ⟨_, exec_rfi d a disp s, rfl, rfl⟩, rfl⟩
  case writers =>
    have kept_absurd : ¬ (t.rpc = s.rpc ∧ t.rstat = s.rstat) := fun ⟨rpc, rstat⟩ =>
      changed.elim (absurd rpc) (absurd rstat)
    obtain ⟨core, -⟩ | ⟨-, rfl⟩ | ⟨m, turn, rfl⟩ := step_inv ht
    · obtain ⟨u, hx, ending⟩ := coreStep_ends core ht
      cases ending with
      | trapped c _ _ label entry same => exact .inl ⟨c, _, label, same.trans entry⟩
      | plain quiet _ same =>
        obtain ⟨rpc, rstat, -⟩ := exec_mode_of_quiet hx quiet
        exact absurd (same ▸ ⟨rpc, rstat⟩) kept_absurd
      | interrupted n _ label _ _ entry => exact .inl ⟨_, _, label, entry⟩
    · exact absurd ⟨rfl, rfl⟩ kept_absurd
    · right
      by_contra other
      obtain ⟨-, -, -, -, -, rstat, rpc, -⟩ := hostMove_frame (fun reset => other (reset ▸ turn)) rfl
      exact kept_absurd ⟨rpc, rstat⟩

/-- The three things a step can do to `sys`: set it under a label, or without one keep it, or clear it
in an Rfi or a Reset. -/
theorem step_sys_cases {s t : State} (ht : step s = .next t) :
    ((stepEvent s).isSome = true ∧ t.sys = true)
    ∨ ((stepEvent s).isSome = false ∧ t.sys = s.sys)
    ∨ ((stepEvent s).isSome = false ∧ t.sys = false
        ∧ ((CoreSteps s ∧ ∃ d a disp, fetched s = .rfi d a disp) ∨ nextTurn s = .host .reset)) := by
  obtain ⟨core, -⟩ | ⟨idle, rfl⟩ | ⟨m, turn, rfl⟩ := step_inv ht
  · obtain ⟨u, hx, ending⟩ := coreStep_ends core ht
    cases ending with
    | trapped c _ _ label entry same =>
      rw [label, same, entry]
      exact .inl ⟨rfl, rfl⟩
    | plain quiet label same =>
      rw [label, same]
      obtain ⟨-, -, ⟨sys, -⟩ | ⟨rfi, sys, -⟩⟩ := exec_mode_of_quiet hx quiet
      · exact .inr (.inl ⟨rfl, sys⟩)
      · exact .inr (.inr ⟨rfl, sys, .inl ⟨core, rfi⟩⟩)
    | interrupted n _ label _ _ entry =>
      rw [label, entry]
      exact .inl ⟨rfl, rfl⟩
  · rw [stepEvent_eq_none idle]
    exact .inr (.inl ⟨rfl, takeTurn_sys s⟩)
  · rw [stepEvent_eq_none (not_coreSteps_of_host turn)]
    by_cases reset : m = .reset
    · subst reset
      exact .inr (.inr ⟨rfl, rfl, .inr turn⟩)
    · obtain ⟨-, -, -, -, -, -, -, sys, -⟩ := hostMove_frame reset rfl
      exact .inr (.inl ⟨rfl, sys.trans (takeTurn_sys s)⟩)

/-- Settles O46 (R129, R270). -/
theorem supervisorModeOnlyByEntry : Obligations.SupervisorModeOnlyByEntry := by
  unfold Obligations.SupervisorModeOnlyByEntry
  intro s t ht
  obtain ⟨label, sys⟩ | ⟨label, sys⟩ | ⟨label, sys, cleared⟩ := step_sys_cases ht
  · rw [label, sys]
    exact ⟨fun _ => rfl, fun _ _ => rfl, nofun⟩
  · rw [label, sys]
    exact ⟨nofun, fun off on => off.symm.trans on, fun on off => absurd (on.symm.trans off) nofun⟩
  · rw [label, sys]
    exact ⟨nofun, nofun, fun _ _ => cleared⟩

end Sys2Proof.Machine
end

section
/-!
PROOFS. Memory (20_memory.md): the canonical form as the data of what it reads as, a Store as the next
fetch sees it (R306), and the steps that change a cell.
-/

namespace Sys2Proof.Machine

/-! ## Canonical memories -/

/-- At its first listed address a canonical memory differs from one that lists only later ones. -/
theorem readByte_ne_of_listed_earlier {lo k : Nat} {b : Byte} {rest m : Memory}
    (hrest : Memory.wfFrom lo ((k, b) :: rest) = true) (hm : Memory.wfFrom (k + 1) m = true) :
    readByte ((k, b) :: rest) k ≠ readByte m k := by
  obtain ⟨-, -, nonzero, -⟩ := (Memory.wfFrom_cons ..).mp hrest
  rw [readByte_below hm (Nat.lt_succ_self k)]
  simpa [readByte] using nonzero

/-- Canonical memories that read alike byte by byte list the same bytes: by induction on the two
lists, the first addresses agree, and so do the rests, which list nothing up to there. -/
theorem eq_of_readByte_eq {lo : Nat} {m n : Memory} (hm : Memory.wfFrom lo m = true)
    (hn : Memory.wfFrom lo n = true)
    (alike : ∀ addr < Config.memBytes, readByte m addr = readByte n addr) : m = n := by
  induction m generalizing lo n with
  | nil =>
    cases n with
    | nil => rfl
    | cons c ns =>
      obtain ⟨-, hk, -⟩ := (Memory.wfFrom_cons ..).mp hn
      exact absurd (alike c.1 hk).symm (readByte_ne_of_listed_earlier hn rfl)
  | cons c ms ih =>
    obtain ⟨k, b⟩ := c
    obtain ⟨hlo, hk, hb, hms⟩ := (Memory.wfFrom_cons ..).mp hm
    cases n with
    | nil => exact absurd (alike k hk) (readByte_ne_of_listed_earlier hm rfl)
    | cons c' ns =>
      obtain ⟨k', b'⟩ := c'
      obtain ⟨hlo', hk', hb', hns⟩ := (Memory.wfFrom_cons ..).mp hn
      obtain lt | rfl | gt := Nat.lt_trichotomy k k'
      · exact absurd (alike k hk) (readByte_ne_of_listed_earlier hm
          ((Memory.wfFrom_cons ..).mpr ⟨lt, hk', hb', hns⟩))
      · have head : b = b' := by simpa [readByte] using alike k hk
        have tails : ms = ns := ih hms hns fun addr haddr => by
          by_cases here : k = addr
          · rw [readByte_below hms (by omega), readByte_below hns (by omega)]
          · simpa [readByte, here] using alike addr haddr
        rw [head, tails]
      · exact absurd (alike k' hk').symm (readByte_ne_of_listed_earlier hn
          ((Memory.wfFrom_cons ..).mpr ⟨gt, hk, hb, hms⟩))

theorem highByte_readWord (m : Memory) (addr : Word) :
    highByte (readWord m addr) = readByte m (highByteAddr addr) :=
  highByte_wordOfBytes _ _

theorem lowByte_readWord (m : Memory) (addr : Word) :
    lowByte (readWord m addr) = readByte m (lowByteAddr addr) :=
  lowByte_wordOfBytes _ _

/-- Every byte is the high or the low byte of a cell (log entry 1). -/
theorem exists_cell_of_byte {addr : Nat} (h : addr < Config.memBytes) :
    ∃ w : Word, addr = highByteAddr w ∨ addr = lowByteAddr w := by
  rw [Config.memBytes] at h
  have cell : uint (truncNat (addr / 2)) = addr / 2 := by
    rw [uint, truncNat, BitVec.toNat_ofNat, Nat.mod_eq_of_lt (by omega)]
  refine ⟨truncNat (addr / 2), ?_⟩
  rw [highByteAddr, lowByteAddr, cell]
  omega

/-- Settles O26: reading alike cell by cell is reading alike byte by byte. -/
theorem canonicalMemoryIsWhatItReadsAs : Obligations.CanonicalMemoryIsWhatItReadsAs := by
  unfold Obligations.CanonicalMemoryIsWhatItReadsAs
  intro m n hm hn alike
  refine eq_of_readByte_eq hm hn fun addr haddr => ?_
  obtain ⟨w, rfl | rfl⟩ := exists_cell_of_byte haddr
  · rw [← highByte_readWord, alike, highByte_readWord]
  · rw [← lowByte_readWord, alike, lowByte_readWord]

/-! ## A Store and the next fetch -/

theorem fetchFirst_fst (s : State) : (fetchFirst s).1 = readWord s.mem s.pc := rfl

/-- Settles O25 (R306): the fetch reads memory, where the Store put the Word. -/
theorem storeSeenByTheNextFetch : Obligations.StoreSeenByTheNextFetch := by
  unfold Obligations.StoreSeenByTheNextFetch
  intro d a disp s hm target
  refine ⟨_, exec_store d a disp s, ?_⟩
  rw [fetchFirst_fst, fetchInstr_ir, and_self, target]
  exact readWord_writeWord_same _ _ hm

theorem fetchInstr_of_two_cells {s : State} {w1 w2 : Word} (first : readWord s.mem s.pc = w1)
    (second : readWord s.mem (s.pc + 1) = w2) (two : isTwoWord w1 = true) :
    (fetchInstr s).1 = decode w1 w2 ∧ (fetchInstr s).2.adr = w2 := by
  subst first second
  rw [fetchInstr_two two]
  exact ⟨rfl, rfl⟩

/-- Settles O59 (R306): the first word is in another cell than the second, so the fetch still takes
two words, and the second is the Word stored. -/
theorem storeSeenAsTheNextSecondWord : Obligations.StoreSeenAsTheNextSecondWord := by
  unfold Obligations.StoreSeenAsTheNextSecondWord
  intro d a disp s hm target two
  have stored := exec_store d a disp s
  rw [target] at stored
  have first : readWord (writeWord s.mem (s.pc + 1) (readReg s d)) s.pc = readWord s.mem s.pc := by
    rw [readWord_writeWord _ _ _ hm, if_neg (by bv_omega)]
  have second : readWord (writeWord s.mem (s.pc + 1) (readReg s d)) (s.pc + 1) = readReg s d :=
    readWord_writeWord_same _ _ hm
  exact ⟨_, stored, fetchInstr_of_two_cells first second two⟩

/-! ## The steps that change a cell -/

/-- Settles O27 (R132, R160): the fetch and the interrupt check keep memory, a Store writes one cell,
and of the environment's moves only Load and Reset write memory. -/
theorem memoryChangesOnlyByStoreLoadReset : Obligations.MemoryChangesOnlyByStoreLoadReset := by
  unfold Obligations.MemoryChangesOnlyByStoreLoadReset
  intro s t addr hm ht changed
  obtain ⟨core, u, hx, rfl⟩ | ⟨-, rfl⟩ | ⟨m, turn, rfl⟩ := step_inv ht
  · left
    obtain ⟨-, -, -, -, -, -, -, -, kept | ⟨d, a, disp, store, written⟩, -⟩ := exec_frame _ hx
    · rw [interruptCheck_mem, kept, fetchedState_mem] at changed
      exact absurd rfl changed
    · rw [fetchedState_mem, effectiveAddress_congr (fetchedState_regs s),
        readReg_congr (fetchedState_regs s)] at written
      rw [interruptCheck_mem, written, readWord_writeWord _ _ _ hm] at changed ⊢
      have here : addr = effectiveAddress s a disp := by
        by_contra other
        rw [if_neg other] at changed
        exact changed rfl
      exact ⟨core, d, a, disp, store, here.symm, if_pos here⟩
  · exact absurd (by rw [takeTurn_mem]) changed
  · right
    by_cases reset : m = .reset
    · exact .inr (reset ▸ turn)
    · left
      obtain ⟨-, -, -, -, -, -, -, -, -, -, kept | ⟨image, load, between, fits, loaded⟩, -⟩ :=
        hostMove_frame reset (rfl : (hostMove m (takeTurn s)).1 = _)
      · rw [kept, takeTurn_mem] at changed
        exact absurd rfl changed
      · rw [imageWords, Config.memWords] at fits
        rw [loaded, takeTurn_mem,
          readWord_loadImage _ image 0 _ (Nat.le_refl _) hm (by omega)] at changed
        have covered : 0 ≤ uint addr ∧ uint addr < 0 + image.length / 2 := by
          by_contra outside
          rw [if_neg outside] at changed
          exact changed rfl
        exact ⟨image, load ▸ turn, (betweenRuns_iff _).mp between, by omega⟩

end Sys2Proof.Machine
end

section
/-!
PROOFS. The environment (70_reset_and_hazards.md section 2): the state after reset, each move where it
is allowed and where it is not, and which steps write `vect`, `mask` and `state`.
-/

namespace Sys2Proof.Machine

/-! ## Reset -/

theorem readReg_reset (r : Index) : readReg State.reset r = 0 := by
  simp [readReg]

theorem readWord_nil (addr : Word) : readWord [] addr = 0 := by
  change wordOfBytes 0 0 = 0
  decide

/-- Settles O51 (R135). -/
theorem resetValues : Obligations.ResetValues := by
  unfold Obligations.ResetValues
  exact ⟨readWord_nil, rfl, readReg_reset, rfl, rfl, rfl, rfl, rfl, rfl, rfl, rfl, rfl, rfl, rfl, rfl⟩

theorem bitOf_zero (k : Index) : bitOf 0 k = false := BitVec.getLsbD_zero

/-- Settles O50. -/
theorem resetIsLegal : Obligations.ResetIsLegal where
  mem := rfl
  cc k _ := by rw [ccBit, readReg_reset, bitOf_zero]
  rstat k _ := bitOf_zero k

/-! ## The moves, where they are allowed and where not -/

theorem betweenRuns_eq_false {s : State} (h : s.state = .executing ∨ s.state = .halt) :
    betweenRuns s = false := by
  obtain h | h := h <;> rw [betweenRuns, h] <;> rfl

theorem hostLoad_of_fits {image : List Byte} {s : State} (between : betweenRuns s = true)
    (fits : image.length / 2 ≤ 65536) :
    hostLoad image s = ((s.setMem (loadImage s.mem 0 image)).setState .ready, .loaded) := by
  rw [hostLoad, imageWords, Config.memWords, if_pos between, if_neg (Nat.not_lt.mpr fits)]

theorem hostLoad_of_too_large {image : List Byte} {s : State} (between : betweenRuns s = true)
    (large : 65536 < image.length / 2) : hostLoad image s = (s, .sizeExceeded) := by
  rw [hostLoad, imageWords, Config.memWords, if_pos between, if_pos large]

theorem hostLoad_of_running {image : List Byte} {s : State}
    (running : s.state = .executing ∨ s.state = .halt) : hostLoad image s = (s, .silent) := by
  rw [hostLoad, betweenRuns_eq_false running]
  rfl

theorem hostConfigure_of_between {v m : Option Word} {e : Option Bool} {s : State}
    (between : betweenRuns s = true) :
    hostConfigure v m e s
      = { s with vect := v.getD s.vect, mask := m.getD s.mask, ie := e.getD s.ie } := by
  rw [hostConfigure, if_pos between]
  rfl

theorem hostConfigure_of_running {v m : Option Word} {e : Option Bool} {s : State}
    (running : s.state = .executing ∨ s.state = .halt) : hostConfigure v m e s = s := by
  rw [hostConfigure, betweenRuns_eq_false running]
  rfl

theorem moveState_of_eq {source : ProcState} (target : ProcState) {s : State}
    (h : s.state = source) : moveState source target s = { s with state := target } := by
  rw [moveState, if_pos h]
  rfl

theorem moveState_of_ne {source : ProcState} (target : ProcState) {s : State}
    (h : s.state ≠ source) : moveState source target s = s := by
  rw [moveState, if_neg h]

theorem hostRaise_of_halt (set : Word) {s : State} (h : s.state = .halt) : hostRaise set s = s := by
  rw [hostRaise, if_pos h]

theorem hostRaise_of_ne (set : Word) {s : State} (h : s.state ≠ .halt) :
    hostRaise set s = { s with req := s.req ||| set } := by
  rw [hostRaise, if_neg h]
  rfl

/-- In Halt every move but Reset has no effect (R297, R299). -/
theorem hostMove_of_halt {m : HostMove} {s : State} (reset : m ≠ .reset) (halt : s.state = .halt) :
    (hostMove m s).1 = s := by
  cases m with
  | reset => exact absurd rfl reset
  | load image => exact congrArg Prod.fst (hostLoad_of_running (.inr halt))
  | configure v m e => exact hostConfigure_of_running (.inr halt)
  | run => exact moveState_of_ne _ (by rw [halt]; decide)
  | pause => exact moveState_of_ne _ (by rw [halt]; decide)
  | cancel => exact moveState_of_ne _ (by rw [halt]; decide)
  | raiseIrq set => exact hostRaise_of_halt set halt
  | read => rfl

/-! ## The statements about one move -/

/-- Settles O54 (R292). -/
theorem loadPlacesTheImage : Obligations.LoadPlacesTheImage := by
  unfold Obligations.LoadPlacesTheImage
  intro image s hm between fits
  have loaded : hostMove (.load image) s
      = ((s.setMem (loadImage s.mem 0 image)).setState .ready, .loaded) :=
    hostLoad_of_fits ((betweenRuns_iff s).mpr between) fits
  have cells := readWord_loadImage _ image 0 s.mem (Nat.le_refl _) hm (by omega)
  rw [loaded]
  refine ⟨rfl, rfl, fun addr covered => ?_, fun addr uncovered => ?_⟩
  · exact (cells addr).trans (if_pos (by omega))
  · exact (cells addr).trans (if_neg (by omega))

/-- Settles O55 (R292, R299). -/
theorem loadRefusals : Obligations.LoadRefusals := by
  unfold Obligations.LoadRefusals
  exact fun image s =>
    ⟨fun large between => hostLoad_of_too_large ((betweenRuns_iff s).mpr between) large,
      fun running => congrArg Prod.fst (hostLoad_of_running running)⟩

/-- Settles O56 (R293). -/
theorem configureWritesTheLaunchRegisters : Obligations.ConfigureWritesTheLaunchRegisters := by
  unfold Obligations.ConfigureWritesTheLaunchRegisters
  exact fun v m e s =>
    ⟨fun between => hostConfigure_of_between ((betweenRuns_iff s).mpr between),
      fun running => hostConfigure_of_running running⟩

/-- Settles O57 (R294): Run keeps `pc` and memory, so the first fetch is where the state before it
would fetch; Load and Pause both leave Ready. -/
theorem runStartsFromReadyOnly : Obligations.RunStartsFromReadyOnly := by
  unfold Obligations.RunStartsFromReadyOnly
  refine ⟨fun s => ⟨fun ready => ?run, fun other => moveState_of_ne _ other⟩,
    fun s executing => ?resume, fun image fits => ?launch⟩
  case run =>
    have run : (hostMove .run s).1 = { s with state := .executing } := moveState_of_eq _ ready
    rw [run]
    exact ⟨rfl, rfl⟩
  case resume =>
    have pause : (hostMove .pause s).1 = s.setState .ready := moveState_of_eq _ executing
    have run : (hostMove .run (s.setState .ready)).1 = { s with state := .executing } :=
      moveState_of_eq (s := s.setState .ready) .executing rfl
    rw [pause, run, ← executing]
  case launch =>
    have load : (hostMove (.load image) State.reset).1
        = (State.reset.setMem (loadImage [] 0 image)).setState .ready :=
      congrArg Prod.fst (hostLoad_of_fits rfl fits)
    rw [load]
    exact ⟨rfl, rfl⟩

/-- Settles O58 (R256, R273, R290, R295, R299). -/
theorem otherHostMoves : Obligations.OtherHostMoves := by
  unfold Obligations.OtherHostMoves
  exact fun set s =>
    ⟨fun executing => ⟨moveState_of_eq _ executing, moveState_of_eq _ executing⟩,
      fun other => ⟨moveState_of_ne _ other, moveState_of_ne _ other⟩,
      hostRaise_of_ne set, hostRaise_of_halt set, rfl, rfl⟩

/-! ## The statements about a step -/

/-- Settles O53 (R297): the core's turn is idle in Halt, and the moves are refused. -/
theorem haltIsTerminal : Obligations.HaltIsTerminal := by
  unfold Obligations.HaltIsTerminal
  intro s halt other
  cases turn : nextTurn s with
  | core => exact step_idle turn (by rw [halt]; decide)
  | host m =>
    rw [step_host turn, hostMove_of_halt (fun reset => other (reset ▸ turn))
      ((takeTurn_state s).trans halt)]

/-- A step keeps `vect` and `mask`, or it is a Reset, or an allowed launch configuration that replaces
those it gives (R128, R131, R293). -/
theorem step_launch_cases {s t : State} (ht : step s = .next t) :
    (t.vect = s.vect ∧ t.mask = s.mask) ∨ nextTurn s = .host .reset
    ∨ ∃ v k e, nextTurn s = .host (.configure v k e) ∧ (s.state = .initialising ∨ s.state = .ready)
        ∧ t.vect = v.getD s.vect ∧ t.mask = k.getD s.mask := by
  obtain ⟨-, u, hx, rfl⟩ | ⟨-, rfl⟩ | ⟨m, turn, rfl⟩ := step_inv ht
  · rw [interruptCheck_vect, interruptCheck_mask]
    exact .inl ⟨exec_vect hx, exec_mask hx⟩
  · exact .inl ⟨rfl, rfl⟩
  · by_cases reset : m = .reset
    · exact .inr (.inl (reset ▸ turn))
    · obtain ⟨-, -, -, -, -, -, -, -, -, launch, -⟩ :=
        hostMove_frame reset (rfl : (hostMove m (takeTurn s)).1 = _)
      obtain ⟨vect, mask, -⟩ | ⟨v, k, e, rfl, between, vect, mask, -⟩ := launch
      · exact .inl ⟨vect, mask⟩
      · exact .inr (.inr ⟨v, k, e, turn, (betweenRuns_iff _).mp between, vect, mask⟩)

/-- Settles O43 (R128, R264, R293): the entry takes `pc` from `vect` and ignores the cause; a step that
writes `vect` is a Reset or a launch configuration, which wrote the value it was given. -/
theorem vectIsOneAddressWrittenByTheHost : Obligations.VectIsOneAddressWrittenByTheHost := by
  unfold Obligations.VectIsOneAddressWrittenByTheHost
  refine ⟨fun _ _ s => ⟨rfl, rfl⟩, fun v s between => ?anyWord, fun s t ht changed => ?writers⟩
  case anyWord =>
    have configured : (hostMove (.configure (some v) none none) s).1 = _ :=
      hostConfigure_of_between ((betweenRuns_iff s).mpr between)
    rw [configured]
    rfl
  case writers =>
    obtain ⟨vect, -⟩ | reset | ⟨v, k, e, turn, between, vect, -⟩ := step_launch_cases ht
    · exact absurd vect changed
    · exact .inl reset
    · cases v with
      | none => exact absurd vect changed
      | some v => exact .inr ⟨v, k, e, turn, vect, between⟩

/-- Settles O44 (R124, R131). -/
theorem maskIsWrittenByTheHostOnly : Obligations.MaskIsWrittenByTheHostOnly := by
  unfold Obligations.MaskIsWrittenByTheHostOnly
  intro s t ht changed
  obtain ⟨-, mask⟩ | reset | ⟨v, k, e, turn, between, -, mask⟩ := step_launch_cases ht
  · exact absurd mask changed
  · exact .inl reset
  · cases k with
    | none => exact absurd mask changed
    | some k => exact .inr ⟨v, k, e, turn, mask, between⟩

/-- Settles O52 (R136, R291): in a cycle only a Halt writes `state`; a Load that is allowed leaves
Ready, which is a change from Initialising alone. -/
theorem processorStateTransitions : Obligations.ProcessorStateTransitions := by
  unfold Obligations.ProcessorStateTransitions
  intro s t ht changed
  obtain ⟨core, u, hx, rfl⟩ | ⟨-, rfl⟩ | ⟨m, turn, rfl⟩ := step_inv ht
  · obtain ⟨-, -, -, -, -, kept | ⟨halt, state⟩, -⟩ := exec_frame _ hx
    · rw [interruptCheck_state, kept, fetchedState_state] at changed
      exact absurd rfl changed
    · exact .inr (.inr (.inr (.inr (.inr ⟨core, halt, (interruptCheck_state u).trans state⟩))))
  · exact absurd (takeTurn_state s) changed
  · by_cases reset : m = .reset
    · subst reset
      exact .inl ⟨turn, rfl⟩
    · obtain ⟨-, -, -, -, -, -, -, -, -, -, -, -, state⟩ :=
        hostMove_frame reset (rfl : (hostMove m (takeTurn s)).1 = _)
      obtain kept | ⟨image, rfl, between, state⟩ | ⟨rfl, move⟩ | ⟨rfl, move⟩ | ⟨rfl, move⟩ := state
      · exact absurd kept changed
      · have from_initialising : s.state = .initialising :=
          ((betweenRuns_iff _).mp between).resolve_right fun ready =>
            changed (state.trans ready.symm)
        exact .inr (.inl ⟨image, turn, from_initialising, state⟩)
      · exact .inr (.inr (.inl ⟨turn, move⟩))
      · exact .inr (.inr (.inr (.inl ⟨turn, move⟩)))
      · exact .inr (.inr (.inr (.inr (.inl ⟨turn, move⟩))))

end Sys2Proof.Machine
end

section
/-!
PROOFS. The invariants of every step: legal states stay legal, and interrupts that are off stay off.
-/

namespace Sys2Proof.Machine

/-! ## Legal states -/

/-- Legality reads memory, the registers and `rstat`: of a new memory it asks the canonical form. -/
theorem State.Legal.of_wf {s t : State} (legal : s.Legal) (wf : t.mem.wf = true)
    (regs : t.regs = s.regs) (rstat : t.rstat = s.rstat) : t.Legal where
  mem := wf
  cc k hk := by rw [ccBit, readReg_congr regs]; exact legal.cc k hk
  rstat k hk := by rw [rstat]; exact legal.rstat k hk

theorem State.Legal.congr {s t : State} (legal : s.Legal) (mem : t.mem = s.mem)
    (regs : t.regs = s.regs) (rstat : t.rstat = s.rstat) : t.Legal :=
  legal.of_wf (mem ▸ legal.mem) regs rstat

theorem legal_trapEntry {s : State} (c : Cause) (legal : s.Legal) : (trapEntry c s).Legal where
  mem := legal.mem
  cc := legal.cc
  rstat k hk := by
    have h0 : k ≠ 0 := by rintro rfl; exact absurd hk (by decide)
    have h1 : k ≠ 1 := by rintro rfl; exact absurd hk (by decide)
    rw [trapEntry_rstat, bitOf_savedStatus, if_neg h0, if_neg h1]

theorem legal_takeInterrupt {s : State} (n : Index) (legal : s.Legal) : (takeInterrupt n s).Legal :=
  legal_trapEntry _ (legal.congr (t := s.setReq _) rfl rfl rfl)

/-- The upper half of `R15` is outside every list of flags an instruction writes (R118). -/
theorem ccBit_of_sameCCBut {s t : State} {written : List Index} (same : SameCCBut written s t)
    (low : ∀ f ∈ written, f.val < 8) {k : Index} (hk : 8 ≤ k.val) : ccBit t k = ccBit s k :=
  same k fun named => absurd (low k named) (by omega)

/-- No instruction writes the upper half of `R15` (R118): the writers of flags by their own frames, the
others since they keep `R15` whole. -/
theorem exec_keeps_upper_cc {i : Instr} {s t : State} (hx : exec i s = .next t) {k : Index}
    (hk : 8 ≤ k.val) : ccBit t k = ccBit s k := by
  obtain ⟨-, -, -, -, -, -, -, -, -, kept | writes, -⟩ := exec_frame i hx
  · exact congrArg (bitOf · k) kept
  · cases i with
    | add d a b =>
      obtain ⟨u, hu, -, -, -, -, same, -⟩ := addResultFlagsFrame d a b s
      cases hx.symm.trans hu
      exact ccBit_of_sameCCBut same (by decide) hk
    | sub d a b =>
      obtain ⟨u, hu, -, -, -, -, same, -⟩ := subResultFlagsFrame d a b s
      cases hx.symm.trans hu
      exact ccBit_of_sameCCBut same (by decide) hk
    | mul d a b =>
      obtain ⟨u, hu, -, -, -, -, same, -⟩ := mulResultFlagsFrame d a b s
      cases hx.symm.trans hu
      exact ccBit_of_sameCCBut same (by decide) hk
    | div d a b =>
      by_cases zero : readReg s b = 0
      · cases hx.symm.trans (exec_div_of_eq zero)
        rfl
      · obtain ⟨u, q, hu, -, -, -, -, -, -, same, -⟩ := divResultFlagsFrame d a b s zero
        cases hx.symm.trans hu
        exact ccBit_of_sameCCBut same (by decide) hk
    | cmp d a b =>
      obtain ⟨u, hu, -, -, -, -, -, -, same, -⟩ := cmpFlagsFrame d a b s
      cases hx.symm.trans hu
      exact ccBit_of_sameCCBut same (by decide) hk
    | _ => cases writes

/-- An instruction keeps memory or writes one cell of it, keeps the upper half of `R15`, and keeps
`rstat` unless it makes an entry. -/
theorem legal_exec {i : Instr} {s t : State} (legal : s.Legal) (hx : exec i s = .next t) :
    t.Legal := by
  obtain ⟨-, -, -, -, -, -, -, -, mem, -, status⟩ := exec_frame i hx
  obtain ⟨-, -, rstat, -⟩ | ⟨c, -, rfl, -⟩ := status
  · refine ⟨?mem, fun k hk => ?cc, fun k hk => ?rstat⟩
    case mem =>
      obtain kept | ⟨d, a, disp, -, written⟩ := mem
      · rw [kept]
        exact legal.mem
      · rw [written]
        exact writeWord_wf _ _ legal.mem
    case cc => rw [exec_keeps_upper_cc hx hk, legal.cc k hk]
    case rstat => rw [rstat, legal.rstat k hk]
  · exact legal_trapEntry c legal

theorem legal_interruptCheck {s : State} (legal : s.Legal) : (interruptCheck s).Legal := by
  obtain same | ⟨n, -, -, taken⟩ := interruptCheck_cases s
  · rw [same]
    exact legal
  · rw [taken]
    exact legal_takeInterrupt n legal

theorem legal_hostMove {m : HostMove} {s : State} (legal : s.Legal) : (hostMove m s).1.Legal := by
  by_cases reset : m = .reset
  · subst reset
    exact resetIsLegal.congr rfl rfl rfl
  · obtain ⟨regs, -, -, -, -, rstat, -, -, -, -, mem, -⟩ := hostMove_frame reset rfl
    refine legal.of_wf ?_ regs rstat
    obtain kept | ⟨image, -, -, -, loaded⟩ := mem
    · rw [kept]
      exact legal.mem
    · rw [loaded]
      exact loadImage_wf _ _ legal.mem

/-- Settles O49: the fetch touches none of the three items; the instruction, the check and the moves of
the environment each keep the invariant. -/
theorem stepKeepsLegal : Obligations.StepKeepsLegal := by
  unfold Obligations.StepKeepsLegal
  intro s t legal ht
  obtain ⟨-, u, hx, rfl⟩ | ⟨-, rfl⟩ | ⟨m, -, rfl⟩ := step_inv ht
  · have fetched_legal : (fetchedState s).Legal :=
      legal.congr (fetchedState_mem s) (fetchedState_regs s) (fetchedState_rstat s)
    exact legal_interruptCheck (legal_exec fetched_legal hx)
  · exact legal.congr (takeTurn_mem s) (takeTurn_regs s) (takeTurn_rstat s)
  · exact legal_hostMove
      (legal.congr (takeTurn_mem s) (takeTurn_regs s) (takeTurn_rstat s))

/-! ## Interrupts off -/

theorem interruptsOff_reset : InterruptsOff State.reset := ⟨rfl, bitOf_zero 1⟩

/-- An entry saves the `ie` it clears. -/
theorem interruptsOff_trapEntry (c : Cause) {s : State} (ie : s.ie = false) :
    InterruptsOff (trapEntry c s) := by
  refine ⟨trapEntry_ie c s, ?_⟩
  rw [trapEntry_rstat, bitOf_savedStatus]
  exact ie

/-- An instruction that raises nothing keeps `ie`, or is Rfi, which takes it from the saved one. -/
theorem interruptsOff_of_quiet {s u : State} (off : InterruptsOff s)
    (hx : exec (fetched s) (fetchedState s) = .next u)
    (quiet : raisedBy (fetched s) (fetchedState s) = none) : InterruptsOff u := by
  obtain ⟨ie, saved⟩ := off
  obtain ⟨-, rstat, ⟨-, kept⟩ | ⟨-, -, restored⟩⟩ := exec_mode_of_quiet hx quiet
  · exact ⟨kept.trans ie, by rw [rstat, saved]⟩
  · exact ⟨restored.trans saved, by rw [rstat, saved]⟩

/-- Settles O48 (R268): in a cycle the trap saves `ie` false, the other instructions keep both bits off,
and so the check takes nothing; of the environment's moves only a launch configuration sets `ie`. -/
theorem interruptsStayOff : Obligations.InterruptsStayOff := by
  unfold Obligations.InterruptsStayOff
  refine ⟨interruptsOff_reset, fun s t off ht not_configure => ?_⟩
  obtain ⟨core, -⟩ | ⟨idle, rfl⟩ | ⟨m, turn, rfl⟩ := step_inv ht
  · obtain ⟨u, hx, ending⟩ := coreStep_ends core ht
    cases ending with
    | trapped c _ sync label entry same =>
      rw [same, entry, label]
      exact ⟨interruptsOff_trapEntry c ((fetchedState_ie s).trans off.1),
        fun n named => sync n (Option.some.inj named)⟩
    | plain quiet label same =>
      rw [same, label]
      exact ⟨interruptsOff_of_quiet off hx quiet, nofun⟩
    | interrupted n quiet _ _ taken _ =>
      obtain ⟨ie, -⟩ := interruptsOff_of_quiet off hx quiet
      obtain ⟨enabled, -⟩ := interruptTaken_bits taken
      rw [ie] at enabled
      cases enabled
  · rw [stepEvent_eq_none idle]
    exact ⟨off, nofun⟩
  · rw [stepEvent_eq_none (not_coreSteps_of_host turn)]
    refine ⟨?_, nofun⟩
    by_cases reset : m = .reset
    · subst reset
      exact interruptsOff_reset
    · obtain ⟨-, -, -, -, -, rstat, -, -, -, ⟨-, -, ie⟩ | ⟨v, k, e, rfl, -⟩, -⟩ :=
        hostMove_frame reset (rfl : (hostMove m (takeTurn s)).1 = _)
      · exact ⟨ie.trans off.1, by rw [rstat]; exact off.2⟩
      · exact absurd turn (not_configure v k e)

end Sys2Proof.Machine
end

section
/-!
PROOFS. The mode restricts nothing (R271; D20). `AlikeButMode` is a simulation: each operation of the
model takes alike states to alike states, and so do the instructions, the interrupt check, the fetch and
the environment's moves, which are made of them.
-/

namespace Sys2Proof.Machine

/-! ## One update per field -/

section
variable {s t : State} (h : AlikeButMode s t)
include h

theorem alike_setRegs (v : Vector Word 16) : AlikeButMode (s.setRegs v) (t.setRegs v) :=
  { h with regs := rfl }

theorem alike_setPc (v : Word) : AlikeButMode (s.setPc v) (t.setPc v) := { h with pc := rfl }

theorem alike_setAdr (v : Word) : AlikeButMode (s.setAdr v) (t.setAdr v) := { h with adr := rfl }

theorem alike_setDat (v : Word) : AlikeButMode (s.setDat v) (t.setDat v) := { h with dat := rfl }

theorem alike_setReq (v : Word) : AlikeButMode (s.setReq v) (t.setReq v) := { h with req := rfl }

theorem alike_setMem (v : Memory) : AlikeButMode (s.setMem v) (t.setMem v) := { h with mem := rfl }

theorem alike_setState (v : ProcState) : AlikeButMode (s.setState v) (t.setState v) :=
  { h with state := rfl }

theorem alike_setSchedule (v : List Turn) : AlikeButMode (s.setSchedule v) (t.setSchedule v) :=
  { h with schedule := rfl }

/-! ## The shared operations -/

theorem alike_writeReg (i : Index) (v : Word) : AlikeButMode (writeReg s i v) (writeReg t i v) := by
  unfold writeReg
  split
  · exact h
  · rw [h.regs]
    exact alike_setRegs h _

theorem alike_writeFlag (f : CCFlag) (b : Bool) :
    AlikeButMode (writeFlag s f b) (writeFlag t f b) := by
  rw [writeFlag, writeFlag, readReg_congr h.regs, h.regs]
  exact alike_setRegs h _

theorem alike_writeAdderFlags (x y z : Bool) :
    AlikeButMode (writeAdderFlags s x y z) (writeAdderFlags t x y z) :=
  alike_writeFlag (alike_writeFlag (alike_writeFlag h .ovI x) .ovN y) .cy z

theorem alike_writeOverflowFlags (x y : Bool) :
    AlikeButMode (writeOverflowFlags s x y) (writeOverflowFlags t x y) :=
  alike_writeFlag (alike_writeFlag h .ovI x) .ovN y

theorem alike_writeCompareFlags (A B : Word) :
    AlikeButMode (writeCompareFlags s A B) (writeCompareFlags t A B) :=
  alike_writeFlag (alike_writeFlag (alike_writeFlag (alike_writeFlag (alike_writeFlag h
    .gtI _) .gtN _) .eq _) .ltN _) .ltI _

theorem alike_withAddress (a : Index) (disp : Word) :
    AlikeButMode (withAddress s a disp) (withAddress t a disp) := by
  rw [withAddress, withAddress, effectiveAddress_congr h.regs]
  exact alike_setAdr h _

theorem alike_jumpWhen (taken : Bool) (a : Index) (disp : Word) :
    AlikeButMode (jumpWhen taken s a disp) (jumpWhen taken t a disp) := by
  rw [jumpWhen_eq, jumpWhen_eq, effectiveAddress_congr h.regs, h.pc]
  exact alike_setPc (alike_withAddress h a disp) _

/-- The entry saves the mode into the one bit of `rstat` that alike states may differ in. -/
theorem alike_trapEntry (c : Cause) : AlikeButMode (trapEntry c s) (trapEntry c t) :=
  { h with
    pc := h.vect
    rpc := h.pc
    ie := rfl
    rstat := fun k hk => by
      rw [trapEntry_rstat, trapEntry_rstat, bitOf_savedStatus, bitOf_savedStatus, if_neg hk,
        if_neg hk, h.ie] }

/-- The return reads bit 1 of `rstat` and not the mode's. -/
theorem alike_returnFromTrap : AlikeButMode (returnFromTrap s) (returnFromTrap t) :=
  { h with
    pc := h.rpc
    ie := h.rstat 1 (by decide) }

theorem alike_takeInterrupt (n : Index) : AlikeButMode (takeInterrupt n s) (takeInterrupt n t) := by
  rw [takeInterrupt, takeInterrupt, h.req]
  exact alike_trapEntry (alike_setReq h _) _

theorem alike_interruptCheck : AlikeButMode (interruptCheck s) (interruptCheck t) := by
  have taken : interruptTaken t = interruptTaken s := by
    rw [interruptTaken, interruptTaken, h.ie, h.req, h.mask]
  unfold interruptCheck
  rw [h.state, taken]
  split
  · split
    · exact alike_takeInterrupt h _
    · exact h
  · exact h

/-! ## Instructions, fetch, moves -/

/-- Every instruction reads only items the two states share. -/
theorem alike_exec (i : Instr) :
    ∃ s' t', exec i s = .next s' ∧ exec i t = .next t' ∧ AlikeButMode s' t' := by
  have reads : ∀ r, readReg t r = readReg s r := readReg_congr h.regs
  have cc : ∀ k, ccBit t k = ccBit s k := fun k => congrArg (bitOf · k) (reads _)
  have address : ∀ a disp, effectiveAddress t a disp = effectiveAddress s a disp :=
    effectiveAddress_congr h.regs
  cases i with
  | add d a b =>
    refine ⟨_, _, exec_add d a b s, exec_add d a b t, ?_⟩
    rw [reads a, reads b]
    exact alike_writeAdderFlags (alike_writeReg h _ _) _ _ _
  | sub d a b =>
    refine ⟨_, _, exec_sub d a b s, exec_sub d a b t, ?_⟩
    rw [reads a, reads b]
    exact alike_writeAdderFlags (alike_writeReg h _ _) _ _ _
  | mul d a b =>
    refine ⟨_, _, exec_mul d a b s, exec_mul d a b t, ?_⟩
    rw [reads a, reads b]
    exact alike_writeOverflowFlags (alike_writeReg h _ _) _ _
  | div d a b =>
    by_cases zero : readReg s b = 0
    · exact ⟨_, _, exec_div_of_eq zero, exec_div_of_eq ((reads b).trans zero),
        alike_trapEntry h _⟩
    · refine ⟨_, _, exec_div_of_ne zero, exec_div_of_ne (by rw [reads b]; exact zero), ?_⟩
      rw [reads a, reads b]
      exact alike_writeOverflowFlags (alike_writeReg h _ _) _ _
  | cmp d a b =>
    refine ⟨_, _, exec_cmp d a b s, exec_cmp d a b t, ?_⟩
    rw [reads a, reads b]
    exact alike_writeCompareFlags h _ _
  | trap d a b => exact ⟨_, _, exec_trap d a b s, exec_trap d a b t, alike_trapEntry h _⟩
  | lea d a disp =>
    refine ⟨_, _, exec_lea d a disp s, exec_lea d a disp t, ?_⟩
    rw [address]
    exact alike_writeReg (alike_withAddress h a disp) _ _
  | load d a disp =>
    refine ⟨_, _, exec_load d a disp s, exec_load d a disp t, ?_⟩
    rw [address, h.mem]
    exact alike_writeReg (alike_setDat (alike_withAddress h a disp) _) _ _
  | store d a disp =>
    refine ⟨_, _, exec_store d a disp s, exec_store d a disp t, ?_⟩
    rw [address, h.mem, reads d]
    exact alike_setMem (alike_setDat (alike_withAddress h a disp) _) _
  | jump d a disp =>
    exact ⟨_, _, exec_jump d a disp s, exec_jump d a disp t, alike_jumpWhen h _ a disp⟩
  | jumpc0 k a disp =>
    refine ⟨_, _, exec_jumpc0 k a disp s, exec_jumpc0 k a disp t, ?_⟩
    rw [cc]
    exact alike_jumpWhen h _ a disp
  | jumpc1 k a disp =>
    refine ⟨_, _, exec_jumpc1 k a disp s, exec_jumpc1 k a disp t, ?_⟩
    rw [cc]
    exact alike_jumpWhen h _ a disp
  | jal d a disp =>
    refine ⟨_, _, exec_jal d a disp s, exec_jal d a disp t, ?_⟩
    rw [address, h.pc]
    exact alike_setPc (alike_writeReg (alike_withAddress h a disp) _ _) _
  | rfi d a disp => exact ⟨_, _, exec_rfi d a disp s, exec_rfi d a disp t, alike_returnFromTrap h⟩
  | halt d a disp => exact ⟨_, _, exec_halt d a disp s, exec_halt d a disp t, alike_setState h _⟩

theorem alike_takeTurn : AlikeButMode (takeTurn s) (takeTurn t) := by
  rw [takeTurn, takeTurn, h.schedule]
  exact alike_setSchedule h _

theorem fetched_alike : fetched t = fetched s := by
  rw [fetched_eq, fetched_eq, h.mem, h.pc]

theorem alike_fetchedState : AlikeButMode (fetchedState s) (fetchedState t) := by
  rw [fetchedState_eq, fetchedState_eq, h.mem, h.pc]
  split
  · exact { alike_takeTurn h with pc := rfl, ir := rfl, adr := rfl }
  · exact { alike_takeTurn h with pc := rfl, ir := rfl }

theorem alike_moveState (source target : ProcState) :
    AlikeButMode (moveState source target s) (moveState source target t) := by
  unfold moveState
  rw [h.state]
  split
  · exact alike_setState h _
  · exact h

/-- No move of the environment reads the mode, and Reset reads nothing but the schedule. -/
theorem alike_hostMove (m : HostMove) : AlikeButMode (hostMove m s).1 (hostMove m t).1 := by
  have between : betweenRuns t = betweenRuns s := by rw [betweenRuns, betweenRuns, h.state]
  cases m with
  | reset =>
    change AlikeButMode (State.reset.setSchedule s.schedule) (State.reset.setSchedule t.schedule)
    rw [h.schedule]
    constructor <;> simp
  | load image =>
    change AlikeButMode (hostLoad image s).1 (hostLoad image t).1
    unfold hostLoad
    rw [between, h.mem]
    split
    · split
      · exact h
      · exact alike_setState (alike_setMem h _) _
    · exact h
  | configure v k e =>
    change AlikeButMode (hostConfigure v k e s) (hostConfigure v k e t)
    unfold hostConfigure
    rw [between, h.vect, h.mask, h.ie]
    split
    · exact { h with vect := rfl, mask := rfl, ie := rfl }
    · exact h
  | run => exact alike_moveState h _ _
  | pause => exact alike_moveState h _ _
  | cancel => exact alike_moveState h _ _
  | raiseIrq set =>
    change AlikeButMode (hostRaise set s) (hostRaise set t)
    unfold hostRaise
    rw [h.state, h.req]
    split
    · exact h
    · exact alike_setReq h _
  | read => exact h

theorem nextTurn_alike : nextTurn t = nextTurn s := by
  rw [nextTurn, nextTurn, h.schedule]

end

/-- Settles O47: alike states have the same turn and, in a cycle, fetch the same instruction. -/
theorem modeRestrictsNothing : Obligations.ModeRestrictsNothing := by
  unfold Obligations.ModeRestrictsNothing
  intro s t h
  have same_turn := nextTurn_alike h
  cases turn : nextTurn s with
  | core =>
    rw [turn] at same_turn
    by_cases executing : s.state = .executing
    · obtain ⟨s', t', hs, ht, h'⟩ := alike_exec (alike_fetchedState h) (fetched s)
      rw [← fetched_alike h] at ht
      exact ⟨_, _, step_of_coreSteps ⟨turn, executing⟩ hs,
        step_of_coreSteps ⟨same_turn, h.state.trans executing⟩ ht, alike_interruptCheck h'⟩
    · exact ⟨_, _, step_idle turn executing,
        step_idle same_turn (by rw [h.state]; exact executing), alike_takeTurn h⟩
  | host m =>
    rw [turn] at same_turn
    exact ⟨_, _, step_host turn, step_host same_turn, alike_hostMove (alike_takeTurn h) m⟩

end Sys2Proof.Machine
end
